-- ==== Sys2Proof/Word.lean ====
section
/-! DEFINITION. The bit vectors of the codec (00_scope.md R11): a byte and a u16, both unsigned. -/

namespace Sys2Proof

/-- An unsigned 8-bit value (R11). -/
abbrev Byte := BitVec 8

/-- An unsigned 16-bit value (R11). -/
abbrev U16 := BitVec 16

end Sys2Proof
end

