-- ==== Sys2Proof/Config.lean ====
section
/-! DEFINITION. The implementation parameters of 00_scope.md R10, and the one free value the spec leaves:
what the frame buffer holds before anything is written to it (10_state.md R29; 93 U3 "any value"). -/

namespace Sys2Proof

/-- What a complete frame of length 0 with a valid checksum does: the parameter `P_EMPTY` (R10, 92 D6). -/
inductive EmptyPolicy where
  | drop
  | emit
  deriving DecidableEq, Repr

/-- A parameter whose legal range is "fixed" (R10): such a field admits the value `v` alone, so it holds no further data. -/
structure Fixed {α : Type} (v : α) where
  deriving DecidableEq, Repr

/-- The value of a fixed parameter. -/
@[simp] abbrev Fixed.value {α : Type} {v : α} (_ : Fixed v) : α := v

/-- `CNT_W` as the width of a type: the drop counter's (R10, 10_state.md R26). -/
@[simp] abbrev cntWidth : Nat := 32

/-- The parameters of R10, one field each, with the defaults of its table. They are fixed for the instance: no operation
writes them (log 5). -/
structure Config where
  /-- `SYNC`, the start-delimiter byte value; fixed. -/
  sync            : Fixed (0x7E : Byte) := {}
  /-- `N_BUF`, the capacity of the frame buffer in bytes; legal range 1..65535. -/
  nBuf            : Nat := 65535
  /-- `P_EMPTY`; legal range `DROP`, `EMIT`. -/
  pEmpty          : EmptyPolicy := .drop
  /-- `CNT_W`, the width of the drop counter in bits; fixed. -/
  cntW            : Fixed cntWidth := {}
  /-- `MAX_CONTENT`, the largest command content in bytes (41_encoder.md R133); fixed. -/
  maxContent      : Fixed (65533 : Nat) := {}
  /-- `FID_FIRST`, the frame identifier the first encoded frame after reset carries (10_state.md R27); fixed. -/
  fidFirst        : Fixed (0x01 : Byte) := {}
  /-- `TX_OPT_DEFAULT`, the Transmit Data options byte when the host gives none; fixed. -/
  txOptDefault    : Fixed (0x00 : Byte) := {}
  /-- `TX_RADIUS_DEFAULT`, the Transmit Data radius byte when the host gives none; fixed. -/
  txRadiusDefault : Fixed (0x00 : Byte) := {}
  /-- `RAT_OPT_DEFAULT`, the Remote AT options byte when the host gives none; fixed. -/
  ratOptDefault   : Fixed (0x02 : Byte) := {}
  deriving DecidableEq, Repr

/-- The legal range of `N_BUF`; every value of the other fields is legal (R10). -/
def Config.legal (c : Config) : Bool := decide (1 ≤ c.nBuf ∧ c.nBuf ≤ 65535)

/-- Every parameter at its default (R10). -/
def Config.default : Config := {}

/-- FREE VALUE (log 6): the byte at each index of the frame buffer before anything is written there.
No body: nothing can be proved about its values (10_state.md R29, 93 U3). -/
opaque Config.bufAtReset : Nat → Byte

end Sys2Proof
end

