-- ==== Sys2Proof/Syntax.lean ====
section
/-! DEFINITION. The operations of spec/opcode_table.json: the eight host operations of 30_encoding.md R70 and the
six decoder actions of R73, one constructor per row; and the decoder phase (10_state.md R22), on which the choice
of an action depends. -/

namespace Sys2Proof

/-- The decoder's phase register (10_state.md R22). The source's fourth state, Complete, is the action CHECKSUM. -/
inductive Phase where
  | idle
  | lengthPending
  | payloadPending
  deriving DecidableEq, Repr

/-- A command name: exactly two bytes, whose values are not checked (41_encoder.md R135, R137, 92 D19). -/
structure CmdName where
  c0 : Byte
  c1 : Byte
  deriving DecidableEq, Repr

/-- One constructor per row of spec/opcode_table.json. An operand that has a default is an `Option`: `none` is the
operand omitted (30_encoding.md R76). Address operands and contents of any length are operations the codec takes:
one that is too long raises an error (R70). -/
inductive Instr where
  /-- RX_BYTE, code 0x1 (R100): one inbound byte. -/
  | rxByte (b : Byte)
  /-- BUILD_FRAME, code 0x2 (R132). -/
  | buildFrame (ty : Byte) (content : List Byte)
  /-- AT_COMMAND, code 0x3 (R135). -/
  | atCommand (cmd : CmdName) (params : Option (List Byte))
  /-- TRANSMIT_DATA, code 0x4 (R136). -/
  | transmitData (dest64 dest16 data : List Byte) (options radius : Option Byte)
  /-- REMOTE_AT, code 0x5 (R137). -/
  | remoteAt (dest64 dest16 : List Byte) (cmd : CmdName) (params : Option (List Byte)) (options : Option Byte)
  /-- CREATE_SOURCE_ROUTE, code 0x6 (R138): the hops in route order. -/
  | createSourceRoute (dest64 dest16 : List Byte) (route : List (List Byte))
  /-- STATUS, code 0xE (R161). -/
  | status
  /-- RESET, code 0xF (R160). -/
  | reset
  /-- SYNC, action row 1 (R101): the byte is 0x7E. -/
  | sync (b : Byte)
  /-- DISCARD, action row 2 (R102): the byte is not 0x7E. -/
  | discard (b : Byte)
  /-- LEN_HI, action row 3 (R103). -/
  | lenHi (b : Byte)
  /-- LEN_LO, action row 4 (R104). -/
  | lenLo (b : Byte)
  /-- DATA, action row 5 (R106). -/
  | data (b : Byte)
  /-- CHECKSUM, action row 6 (R107): `c` is the checksum byte. -/
  | checksum (c : Byte)
  deriving DecidableEq, Repr

/-- The unit an operation belongs to: the "unit" column of the table in R70; an action belongs to the decoder. -/
inductive OpUnit where
  | decoder
  | encoder
  | both
  deriving DecidableEq, Repr

def Instr.unit : Instr → OpUnit
  | .rxByte _ => .decoder
  | .buildFrame _ _ => .encoder
  | .atCommand _ _ => .encoder
  | .transmitData _ _ _ _ _ => .encoder
  | .remoteAt _ _ _ _ _ => .encoder
  | .createSourceRoute _ _ _ => .encoder
  | .status => .both
  | .reset => .both
  | .sync _ => .decoder
  | .discard _ => .decoder
  | .lenHi _ => .decoder
  | .lenLo _ => .decoder
  | .data _ => .decoder
  | .checksum _ => .decoder

/-- The host operation code (R70); a decoder action has none, since the host cannot issue it. -/
def Instr.opcode : Instr → Option (BitVec 4)
  | .rxByte _ => some 0x1
  | .buildFrame _ _ => some 0x2
  | .atCommand _ _ => some 0x3
  | .transmitData _ _ _ _ _ => some 0x4
  | .remoteAt _ _ _ _ _ => some 0x5
  | .createSourceRoute _ _ _ => some 0x6
  | .status => some 0xE
  | .reset => some 0xF
  | .sync _ => none
  | .discard _ => none
  | .lenHi _ => none
  | .lenLo _ => none
  | .data _ => none
  | .checksum _ => none

/-- A host operation is a row of R70, not a decoder action. -/
def Instr.isHostOp (i : Instr) : Bool := i.opcode.isSome

end Sys2Proof
end

