-- ==== Sys2Proof/WellFormed.lean ====
section
/-! DEFINITION. Well-formed instructions: the operand conditions of the action table (30_encoding.md R73 rows 1 and
2). Every operand of a host operation is legal: an over-long address or content is an operation the codec takes, and
raises an error (R70). -/

namespace Sys2Proof

/-- `SYNC` takes the start delimiter and `DISCARD` any other byte; every other operand value is legal. -/
def Instr.wf : Instr → Bool
  | .sync b => b == Config.default.sync.value
  | .discard b => b != Config.default.sync.value
  | .rxByte _ => true
  | .buildFrame _ _ => true
  | .atCommand _ _ => true
  | .transmitData _ _ _ _ _ => true
  | .remoteAt _ _ _ _ _ => true
  | .createSourceRoute _ _ _ => true
  | .status => true
  | .reset => true
  | .lenHi _ => true
  | .lenLo _ => true
  | .data _ => true
  | .checksum _ => true

end Sys2Proof
end

