-- ==== Sys2Proof/Decode.lean ====
section
/-! DEFINITION. Decoding and encoding of the two formats of spec/opcode_table.json.

- Format host_op (30_encoding.md R70): a host operation begins with its 4-bit code. The spec fixes the code and the
  operands and no serial form, so the form below is the model's (DESIGN CHOICE, logs 1 and 2): one byte whose bits 3:0
  are the code and whose bits 7:4 are 0, then the operands in the order R70 lists them. A byte is itself; a byte
  sequence is 01 before each of its bytes and 00 at its end; an operand with a default is 00 when omitted and 01 and
  then the operand when given; a list of sequences is 01 before each sequence and 00 at its end.
- Format rx_action (R73): the inbound byte, read in the decoder's state. -/

namespace Sys2Proof

/-- Why a stream of host operations is rejected. -/
inductive DecodeError where
  /-- An unassigned operation code, 0x0 or 0x7..0xD (R74 (a), R184). -/
  | unassigned (code : BitVec 4)
  /-- Bits 7:4 of an operation's first byte are not 0: no 4-bit code (log 2). -/
  | reservedBits (op : Byte)
  /-- The stream ends inside an operation (log 1). -/
  | truncated
  /-- A marker that is neither 00 nor 01 (log 1). -/
  | badMarker (m : Byte)
  deriving DecidableEq, Repr

/-- A byte sequence, and the rest of the stream. -/
def decodeSeq : List Byte → Except DecodeError (List Byte × List Byte)
  | [] => .error .truncated
  | [m] => if m = 0 then .ok ([], []) else if m = 1 then .error .truncated else .error (.badMarker m)
  | m :: b :: rest =>
    if m = 0 then .ok ([], b :: rest)
    else if m = 1 then
      match decodeSeq rest with
      | .ok (l, r) => .ok (b :: l, r)
      | .error e => .error e
    else .error (.badMarker m)

/-- The marker of an operand that may be absent: is it present? -/
def decodeMarker : List Byte → Except DecodeError (Bool × List Byte)
  | [] => .error .truncated
  | m :: rest => if m = 0 then .ok (false, rest) else if m = 1 then .ok (true, rest) else .error (.badMarker m)

/-- One byte operand. -/
def decodeByte : List Byte → Except DecodeError (Byte × List Byte)
  | [] => .error .truncated
  | b :: rest => .ok (b, rest)

/-- A byte operand with a default (R76). -/
def decodeOptByte (bs : List Byte) : Except DecodeError (Option Byte × List Byte) := do
  let (given, bs) ← decodeMarker bs
  if given then
    let (b, bs) ← decodeByte bs
    return (some b, bs)
  else return (none, bs)

/-- A byte-sequence operand with a default (R76). -/
def decodeOptSeq (bs : List Byte) : Except DecodeError (Option (List Byte) × List Byte) := do
  let (given, bs) ← decodeMarker bs
  if given then
    let (l, bs) ← decodeSeq bs
    return (some l, bs)
  else return (none, bs)

/-- A two-byte command name (R135, R137). -/
def decodeCmd (bs : List Byte) : Except DecodeError (CmdName × List Byte) := do
  let (c0, bs) ← decodeByte bs
  let (c1, bs) ← decodeByte bs
  return ({ c0 := c0, c1 := c1 }, bs)

/-- A list of byte sequences; each takes at least one byte, so the stream's length is fuel enough. -/
def decodeSeqs : Nat → List Byte → Except DecodeError (List (List Byte) × List Byte)
  | 0, _ => .error .truncated
  | fuel + 1, bs => do
    let (more, bs) ← decodeMarker bs
    if more then
      let (h, bs) ← decodeSeq bs
      let (hs, bs) ← decodeSeqs fuel bs
      return (h :: hs, bs)
    else return ([], bs)

/-- The operation that a stream begins with, and the rest of the stream: total, rejecting by name (R70, R74). -/
def decode : List Byte → Except DecodeError (Instr × List Byte)
  | [] => .error .truncated
  | op :: bs =>
    if op.extractLsb' 4 4 ≠ (0 : BitVec 4) then .error (.reservedBits op)
    else
      match (op.extractLsb' 0 4).toNat with
      | 0x1 => do
        let (b, bs) ← decodeByte bs
        return (.rxByte b, bs)
      | 0x2 => do
        let (ty, bs) ← decodeByte bs
        let (content, bs) ← decodeSeq bs
        return (.buildFrame ty content, bs)
      | 0x3 => do
        let (cmd, bs) ← decodeCmd bs
        let (params, bs) ← decodeOptSeq bs
        return (.atCommand cmd params, bs)
      | 0x4 => do
        let (dest64, bs) ← decodeSeq bs
        let (dest16, bs) ← decodeSeq bs
        let (data, bs) ← decodeSeq bs
        let (options, bs) ← decodeOptByte bs
        let (radius, bs) ← decodeOptByte bs
        return (.transmitData dest64 dest16 data options radius, bs)
      | 0x5 => do
        let (dest64, bs) ← decodeSeq bs
        let (dest16, bs) ← decodeSeq bs
        let (cmd, bs) ← decodeCmd bs
        let (params, bs) ← decodeOptSeq bs
        let (options, bs) ← decodeOptByte bs
        return (.remoteAt dest64 dest16 cmd params options, bs)
      | 0x6 => do
        let (dest64, bs) ← decodeSeq bs
        let (dest16, bs) ← decodeSeq bs
        let (route, bs) ← decodeSeqs bs.length bs
        return (.createSourceRoute dest64 dest16 route, bs)
      | 0xE => .ok (.status, bs)
      | 0xF => .ok (.reset, bs)
      | _ => .error (.unassigned (op.extractLsb' 0 4))

/-- The decoder's action for an inbound byte (R73, in the order of R100's tests). In a state no run reaches, with
`dcount > dlen`, R100's last branch takes it to CHECKSUM (log 8). -/
def selectAction (cfg : Config) (phase : Phase) (lcount : BitVec 1) (dlen dcount : U16) (b : Byte) : Instr :=
  match phase with
  | .idle => if b = cfg.sync.value then .sync b else .discard b
  | .lengthPending => if lcount = 0 then .lenHi b else .lenLo b
  | .payloadPending => if dcount.toNat < dlen.toNat then .data b else .checksum b

/-- A byte sequence in the serial form. -/
def encodeSeq : List Byte → List Byte
  | [] => [0x00]
  | b :: l => 0x01 :: b :: encodeSeq l

/-- A byte operand with a default in the serial form. -/
def encodeOptByte : Option Byte → List Byte
  | none => [0x00]
  | some b => [0x01, b]

/-- A byte-sequence operand with a default in the serial form. -/
def encodeOptSeq : Option (List Byte) → List Byte
  | none => [0x00]
  | some l => 0x01 :: encodeSeq l

/-- A list of byte sequences in the serial form. -/
def encodeSeqs : List (List Byte) → List Byte
  | [] => [0x00]
  | h :: hs => 0x01 :: encodeSeq h ++ encodeSeqs hs

/-- The words of an instruction: a host operation in the serial form (R70), a decoder action as its inbound byte (R73). -/
def encode : Instr → List Byte
  | .rxByte b => [0x01, b]
  | .buildFrame ty content => 0x02 :: ty :: encodeSeq content
  | .atCommand cmd params => 0x03 :: cmd.c0 :: cmd.c1 :: encodeOptSeq params
  | .transmitData dest64 dest16 data options radius =>
    0x04 :: encodeSeq dest64 ++ encodeSeq dest16 ++ encodeSeq data ++ encodeOptByte options ++ encodeOptByte radius
  | .remoteAt dest64 dest16 cmd params options =>
    0x05 :: encodeSeq dest64 ++ encodeSeq dest16 ++ cmd.c0 :: cmd.c1 :: encodeOptSeq params ++ encodeOptByte options
  | .createSourceRoute dest64 dest16 route => 0x06 :: encodeSeq dest64 ++ encodeSeq dest16 ++ encodeSeqs route
  | .status => [0x0E]
  | .reset => [0x0F]
  | .sync b => [b]
  | .discard b => [b]
  | .lenHi b => [b]
  | .lenLo b => [b]
  | .data b => [b]
  | .checksum c => [c]

/-- A sequence of host operations, one after the other (00_scope.md R9). -/
def encodeAll (is : List Instr) : List Byte := (is.map encode).flatten

/-- The bytes of a table word: bit 0 is the least significant bit of the first byte. -/
def wordBytes (nbits w : Nat) : List Byte :=
  (List.range ((nbits + 7) / 8)).map fun k => BitVec.ofNat 8 (w >>> (8 * k))

/-- The instruction of the table word `w`. A first byte with an assigned code is a host operation's; operand bytes above
`nbits` are 0, and the longest host operation of zeros has seven bytes. A first byte that is no assigned code is no host
operation of the table: it is read as the rx_action format's inbound byte, in the phase after reset (log 9). -/
def decodeTableWord (nbits w : Nat) : Option Instr :=
  match decode (wordBytes nbits w ++ List.replicate 8 0) with
  | .ok (i, _) => some i
  | .error (.unassigned code) => some (selectAction Config.default .idle 0 0 0 (code.zeroExtend 8))
  | .error (.reservedBits b) => some (selectAction Config.default .idle 0 0 0 b)
  | .error .truncated => none
  | .error (.badMarker _) => none

/-- The stream bytes that make the next step run the table word `w`: the operation itself, or the RX_BYTE that brings
the inbound byte of an rx_action word (log 9). -/
def fetchWordBytes (nbits w : Nat) : List Byte :=
  match decode (wordBytes nbits w ++ List.replicate 8 0) with
  | .ok (i, _) => encode i
  | .error (.unassigned code) => encode (.rxByte (code.zeroExtend 8))
  | .error (.reservedBits b) => encode (.rxByte b)
  | .error .truncated => wordBytes nbits w
  | .error (.badMarker _) => wordBytes nbits w

end Sys2Proof
end

