-- ==== Sys2Proof/Machine/State.lean ====
section
/-! DEFINITION. The codec's state (10_state.md), the output events (30_encoding.md R71), and why a step can stop. -/

namespace Sys2Proof.Machine

/-- The frame buffer `dbuf` (10_state.md R29): the bytes written so far, addresses strictly rising. An index not
listed holds what it held at reset, which the spec leaves open (log 6). -/
abbrev Memory := List Host.Cell

/-- The canonical form: addresses strictly rising. -/
def Memory.wf (m : Memory) : Bool := decide (m.Pairwise fun c d => c.1 < d.1)

/-- Why a completed frame is dropped (60_exceptions.md R173). -/
inductive DropReason where
  | checksum
  | empty
  | oversize
  deriving DecidableEq, Repr

/-- The reason codes of R173. -/
def DropReason.code : DropReason → Nat
  | .checksum => 1
  | .empty => 2
  | .oversize => 3

/-- Why an encoder operation fails (60_exceptions.md R171). -/
inductive EncError where
  | addrTooLong
  | lengthOverflow
  | routeTooLong
  deriving DecidableEq, Repr

/-- The error codes of R171. -/
def EncError.code : EncError → Nat
  | .addrTooLong => 1
  | .lengthOverflow => 2
  | .routeTooLong => 3

/-- The record STATUS emits (42_control.md R161). -/
structure StatusRecord where
  phaseCode : BitVec 2
  dlen      : U16
  dcount    : U16
  dropCount : BitVec cntWidth
  frameId   : Byte
  deriving DecidableEq, Repr

/-- The output events (30_encoding.md R71). -/
inductive Event where
  | frameOut (frame : List Byte)
  | drop (reason : DropReason)
  | txFrame (bytes : List Byte)
  | err (e : EncError)
  | statusOut (r : StatusRecord)
  deriving DecidableEq, Repr

/-- The output channels (R71). -/
inductive Channel where
  | FRAME_OUT
  | DIAG
  | TX
  | ERR
  | STAT
  deriving DecidableEq, Repr

/-- The channel of an event (R71). -/
def Event.channel : Event → Channel
  | .frameOut _ => .FRAME_OUT
  | .drop _ => .DIAG
  | .txFrame _ => .TX
  | .err _ => .ERR
  | .statusOut _ => .STAT

/-- Everything the spec gives one codec instance, its parameters, and the host's side of the interface. -/
structure State where
  /-- The parameters of 00_scope.md R10; no operation writes them (log 5). -/
  cfg       : Config
  /-- R22. -/
  phase     : Phase
  /-- R23: the length bytes received. -/
  lcount    : BitVec 1
  /-- R24: the length field. -/
  dlen      : U16
  /-- R25: the frame data bytes received. -/
  dcount    : U16
  /-- R25: their sum mod 256. -/
  dsum      : Byte
  /-- R29: the frame buffer. -/
  dbuf      : Memory
  /-- R26: the dropped frames, saturating. -/
  dropCount : BitVec cntWidth
  /-- R27: the identifier the next encoded frame will carry. -/
  frameId   : Byte
  /-- MODEL: the host operations not yet taken, in the serial form of Decode.lean (R9, logs 1 and 3). -/
  opIn      : List Byte
  /-- MODEL: the output events so far over all channels, oldest first (R9, log 4). -/
  events    : List Event
  deriving DecidableEq, Repr

/-- A step stops with a fault. -/
inductive Fault where
  /-- Raised by the buffer primitives for an index outside 0..N_BUF-1, which does not exist (20_memory.md R40, log 16).
  Every instruction checks the index first, so none raises it. Safe: the machine stops. -/
  | bufferIndex (index : Nat)
  deriving DecidableEq, Repr

/-- A step gives no meaning. -/
inductive Refusal where
  /-- Raised by an instruction with no meaning yet: none. Safe. -/
  | notModelled (mnemonic : String)
  /-- Raised by the fetch for the codes 0x0 and 0x7..0xD (R74 (a), R184). Safe: the spec refuses the run. -/
  | unassignedOpcode (code : BitVec 4)
  /-- Raised by the fetch for a stream that is no serial form of an operation (log 1). Safe: the host never sends one. -/
  | malformedOperation (e : DecodeError)
  /-- Raised by a decoder action in a state, or for a byte, for which the table of R73 does not select it; a step never
  does that (log 7). Safe. -/
  | actionNotSelected (mnemonic : String)
  deriving DecidableEq, Repr

/-- The state of a fresh instance (10_state.md R33, 70_reset_and_hazards.md R190) with the default parameters (R10):
no operation delivered yet and no event emitted. -/
def State.reset : State where
  cfg := Config.default
  phase := .idle
  lcount := 0
  dlen := 0
  dcount := 0
  dsum := 0
  dbuf := []
  dropCount := 0
  frameId := Config.default.fidFirst.value
  opIn := []
  events := []

end Sys2Proof.Machine
end

