-- ==== Sys2Proof/Machine/Flags.lean ====
section
/-! DEFINITION. The codec has no condition flags (10_state.md R30). Here are the values its operations compute: the
transient `csum_ok`, the checksum, the halves of the length field, and the two counters' successors. -/

namespace Sys2Proof.Machine

/-- The natural-number sum of a byte sequence (00_scope.md R12). -/
def sumBytes (l : List Byte) : Nat := (l.map BitVec.toNat).sum

/-- The checksum predicate (40_decoder.md R108): `(zext_9(dsum) + zext_9(c)) mod 256 = 0xFF`. -/
def csumOk (dsum c : Byte) : Bool := (dsum.zeroExtend 9 + c.zeroExtend 9).toNat % 256 == 0xFF

/-- The checksum of frame data (41_encoder.md R131): `0xFF - (sum(d) mod 256)`. -/
def checksumOf (d : List Byte) : Byte := BitVec.ofNat 8 (0xFF - sumBytes d % 256)

/-- `hi(x) = x[15:8]` (00_scope.md R12). -/
def hi (x : U16) : Byte := x.extractLsb' 8 8

/-- `lo(x) = x[7:0]` (00_scope.md R12). -/
def lo (x : U16) : Byte := x.extractLsb' 0 8

/-- The 2-bit code of a phase (10_state.md R22). -/
def phaseCode : Phase → BitVec 2
  | .idle => 0
  | .lengthPending => 1
  | .payloadPending => 2

/-- The drop counter's next value: saturating at the largest `CNT_W`-bit value, 0xFFFFFFFF (10_state.md R26,
40_decoder.md R107). -/
def satSucc (cfg : Config) (n : BitVec cntWidth) : BitVec cntWidth :=
  BitVec.ofNat cntWidth (min (n.toNat + 1) (2 ^ cfg.cntW.value - 1))

/-- The next frame identifier: 255 is followed by 1 (10_state.md R27, 41_encoder.md R132). -/
def nextFid (fid : Byte) : Byte := if fid = 255 then 1 else fid + 1

end Sys2Proof.Machine
end

