-- ==== Sys2Proof/Machine/Operands.lean ====
section
/-! DEFINITION. The operands of the command builders: address normalisation (41_encoder.md R130), defaults
(00_scope.md R10) and the content layouts of 30_encoding.md R64. A content computation answers the first error in the
order of 60_exceptions.md R174; the content length is checked after it, by the frame builder. -/

namespace Sys2Proof.Machine

/-- ADDR_NORM (R130): left zero-padding to `size` bytes, an error when the field is longer. -/
def addrNorm (a : List Byte) (size : Nat) : Except EncError (List Byte) :=
  if a.length > size then .error .addrTooLong else .ok (List.replicate (size - a.length) 0x00 ++ a)

/-- The hops of a route, each normalised to two bytes and flattened in route order (R138, R140). -/
def hopsNorm : List (List Byte) → Except EncError (List Byte)
  | [] => .ok []
  | h :: hs => do
    let a ← addrNorm h 2
    let rest ← hopsNorm hs
    return a ++ rest

/-- The bytes of a command name. -/
def cmdBytes (cmd : CmdName) : List Byte := [cmd.c0, cmd.c1]

/-- The two destination addresses, 64-bit first (R64). -/
def destBytes (dest64 dest16 : List Byte) : Except EncError (List Byte) := do
  let a64 ← addrNorm dest64 8
  let a16 ← addrNorm dest16 2
  return a64 ++ a16

/-- The content of an AT Command (R135): `params` defaults to `[]`. -/
def atContent (cmd : CmdName) (params : Option (List Byte)) : List Byte :=
  cmdBytes cmd ++ params.getD []

/-- The content of a Transmit Data (R136): the radius byte before the options byte. -/
def transmitContent (cfg : Config) (dest64 dest16 data : List Byte) (options radius : Option Byte) : Except EncError (List Byte) := do
  let dest ← destBytes dest64 dest16
  return dest ++ [radius.getD cfg.txRadiusDefault.value, options.getD cfg.txOptDefault.value] ++ data

/-- The content of a Remote AT Command (R137). -/
def remoteContent (cfg : Config) (dest64 dest16 : List Byte) (cmd : CmdName) (params : Option (List Byte))
    (options : Option Byte) :
    Except EncError (List Byte) := do
  let dest ← destBytes dest64 dest16
  return dest ++ [options.getD cfg.ratOptDefault.value] ++ cmdBytes cmd ++ params.getD []

/-- The content of a Create Source Route (R138): the hop count is checked between the addresses and the hops. -/
def routeContent (dest64 dest16 : List Byte) (route : List (List Byte)) : Except EncError (List Byte) := do
  let dest ← destBytes dest64 dest16
  if route.length > 255 then .error .routeTooLong
  else
    let hops ← hopsNorm route
    return dest ++ [0x00, BitVec.ofNat 8 route.length] ++ hops

end Sys2Proof.Machine
end

