-- ==== Sys2Proof/Machine/Ops.lean ====
section
/-! DEFINITION. The named operations over the state: the frame buffer's primitives (20_memory.md R40), emitting an
event and raising an encoder error (00_scope.md R13, 60_exceptions.md R172; the codec's only exception, with no handler
and so no return, R178), the ends of a frame, sending a frame, and fetching the next host operation. -/

namespace Sys2Proof.Machine

abbrev Result := Host.Outcome State Fault Refusal

/-- The byte listed at an index, if any. -/
def Memory.read : Memory → Nat → Option Byte
  | [], _ => none
  | c :: m, i => if c.1 = i then some c.2 else Memory.read m i

/-- Write one byte, keeping the addresses rising. -/
def Memory.write : Memory → Nat → Byte → Memory
  | [], i, b => [(i, b)]
  | c :: m, i, b =>
    if i < c.1 then (i, b) :: c :: m
    else if c.1 = i then (i, b) :: m
    else c :: Memory.write m i b

/-- The byte at an index of the buffer: the one last written, else the free value of log 6 (R29, 93 U3). -/
def State.bufByte (s : State) (i : Nat) : Byte := (s.dbuf.read i).getD (Config.bufAtReset i)

/-- `MemRead(i, 1)` (00_scope.md R13, 20_memory.md R40): indices 0..N_BUF-1 exist. -/
def State.memRead (s : State) (i : Nat) : Except Fault Byte :=
  if i < s.cfg.nBuf then .ok (s.bufByte i) else .error (.bufferIndex i)

/-- `MemWrite(i, 1, b)` (00_scope.md R13, 20_memory.md R40). -/
def State.memWrite (s : State) (i : Nat) (b : Byte) : Except Fault State :=
  if i < s.cfg.nBuf then .ok { s with dbuf := s.dbuf.write i b } else .error (.bufferIndex i)

/-- The bytes at `n` indices from `i` on, in index order (R42). -/
def State.memReads (s : State) : Nat → Nat → Except Fault (List Byte)
  | _, 0 => .ok []
  | i, n + 1 => do
    let b ← s.memRead i
    let rest ← s.memReads (i + 1) n
    return b :: rest

/-- `emit CH(v)` (00_scope.md R13). -/
def State.emit (s : State) (e : Event) : State := { s with events := s.events ++ [e] }

/-- `raise EncError(code)` (60_exceptions.md R172): one ERR event, and no state element written. -/
def State.raise (s : State) (e : EncError) : Result := .next (s.emit (.err e))

/-- Back to IDLE with an empty partial frame (R107, R160). -/
def State.toIdle (s : State) : State :=
  { s with phase := .idle, lcount := 0, dlen := 0, dcount := 0, dsum := 0 }

/-- Drop a completed frame: count it and report the reason (R107, R110). -/
def State.dropFrame (s : State) (r : DropReason) : State :=
  ({ s with dropCount := satSucc s.cfg s.dropCount }).emit (.drop r)

/-- The drop reason of a completed frame with checksum byte `c`, in the order of R107 and R175. -/
def State.dropReason (s : State) (c : Byte) : Option DropReason :=
  if csumOk s.dsum c = false then some .checksum
  else if s.dlen = 0 ∧ s.cfg.pEmpty = .drop then some .empty
  else if s.dlen.toNat > s.cfg.nBuf then some .oversize
  else none

/-- The frame of `type` and `content` with identifier `fid` (30_encoding.md R60, R64; 41_encoder.md R132). -/
def frameBytes (cfg : Config) (ty fid : Byte) (content : List Byte) : List Byte :=
  let len : U16 := BitVec.ofNat 16 (content.length + 2)
  let d := [ty, fid] ++ content
  [cfg.sync.value, hi len, lo len] ++ d ++ [checksumOf d]

/-- One frame sent: one TX_FRAME event, and the identifier advanced (41_encoder.md R132, R141). -/
def State.sent (s : State) (bytes : List Byte) : State :=
  ({ s with frameId := nextFid s.frameId }).emit (.txFrame bytes)

/-- Build, checksum and send one frame (41_encoder.md R132, R133); every encoder operation ends here. -/
def State.sendFrame (s : State) (ty : Byte) (content : List Byte) : Result :=
  if content.length > s.cfg.maxContent.value then s.raise .lengthOverflow
  else .next (s.sent (frameBytes s.cfg ty s.frameId content))

/-- Send the content a command builder assembled, or raise the error it met (R139). -/
def State.sendBuilt (s : State) (ty : Byte) (content : Except EncError (List Byte)) : Result :=
  match content with
  | .error e => s.raise e
  | .ok content => s.sendFrame ty content

/-- The action the state selects for an inbound byte (30_encoding.md R73). -/
def State.select (s : State) (b : Byte) : Instr := selectAction s.cfg s.phase s.lcount s.dlen s.dcount b

/-- A decoder action happens only where R73 selects it (log 7). -/
def State.ifSelected (s : State) (b : Byte) (i : Instr) (mnemonic : String) (r : Result) : Result :=
  if s.select b = i then r else .refused (.actionNotSelected mnemonic)

/-- The record of 42_control.md R161. -/
def State.statusRecord (s : State) : StatusRecord where
  phaseCode := phaseCode s.phase
  dlen := s.dlen
  dcount := s.dcount
  dropCount := s.dropCount
  frameId := s.frameId

/-- Why the fetch refuses a stream (60_exceptions.md R184, log 1). -/
def fetchRefusal : DecodeError → Refusal
  | .unassigned code => .unassignedOpcode code
  | .reservedBits op => .malformedOperation (.reservedBits op)
  | .truncated => .malformedOperation .truncated
  | .badMarker m => .malformedOperation (.badMarker m)

/-- Take the next host operation off the stream; `none` when the host has delivered no operation (R183, log 3). -/
def State.fetch (s : State) : Except Refusal (Option (Instr × State)) :=
  if s.opIn = [] then .ok none
  else
    match decode s.opIn with
    | .ok (i, rest) => .ok (some (i, { s with opIn := rest }))
    | .error e => .error (fetchRefusal e)

end Sys2Proof.Machine
end

