-- ==== Sys2Proof/Machine/Control.lean ====
section
/-! DEFINITION. The control operations (42_control.md). -/

namespace Sys2Proof.Machine

/-- STATUS (R161): one record, no state element written. -/
def execStatus (s : State) : Result := .next (s.emit (.statusOut s.statusRecord))

/-- RESET (R160): every register at its reset value, `dbuf` unchanged, no event. -/
def execReset (s : State) : Result :=
  .next { s.toIdle with dropCount := 0, frameId := s.cfg.fidFirst.value }

end Sys2Proof.Machine
end

