-- ==== Sys2Proof/Machine/Decoder.lean ====
section
/-! DEFINITION. The streaming frame decoder (40_decoder.md): the six actions and RX_BYTE, which does the one selected. -/

namespace Sys2Proof.Machine

/-- SYNC (R101): a start delimiter in IDLE. -/
def execSync (b : Byte) (s : State) : Result :=
  s.ifSelected b (.sync b) "SYNC" (.next { s with phase := .lengthPending, lcount := 0 })

/-- DISCARD (R102): nothing is written and nothing emitted. -/
def execDiscard (b : Byte) (s : State) : Result :=
  s.ifSelected b (.discard b) "DISCARD" (.next s)

/-- LEN_HI (R103): `dlen <- zext_16(b) * 256`. -/
def execLenHi (b : Byte) (s : State) : Result :=
  s.ifSelected b (.lenHi b) "LEN_HI" (.next { s with dlen := b.zeroExtend 16 * 256, lcount := 1 })

/-- LEN_LO (R104): `dlen <- dlen + zext_16(b)`. -/
def execLenLo (b : Byte) (s : State) : Result :=
  s.ifSelected b (.lenLo b) "LEN_LO"
    (.next { s with dlen := s.dlen + b.zeroExtend 16, lcount := 0, dcount := 0, dsum := 0, phase := .payloadPending })

/-- DATA (R106): stored only at an index below `N_BUF`, summed and counted always. -/
def execData (b : Byte) (s : State) : Result :=
  s.ifSelected b (.data b) "DATA"
    (match (if s.dcount.toNat < s.cfg.nBuf then s.memWrite s.dcount.toNat b else .ok s) with
    | .ok t => .next { t with dsum := s.dsum + b, dcount := s.dcount + 1 }
    | .error f => .fault f)

/-- CHECKSUM (R107): emit the frame or drop it, and return to IDLE. -/
def execChecksum (c : Byte) (s : State) : Result :=
  s.ifSelected c (.checksum c) "CHECKSUM"
    (match s.dropReason c with
    | some r => .next (s.dropFrame r).toIdle
    | none =>
      match s.memReads 0 s.dlen.toNat with
      | .ok frame => .next (s.emit (.frameOut frame)).toIdle
      | .error f => .fault f)

/-- RX_BYTE (R100): consume one inbound byte, by the six tests of the rule in their order. -/
def execRxByte (b : Byte) (s : State) : Result :=
  if s.phase = .idle ∧ b = s.cfg.sync.value then execSync b s
  else if s.phase = .idle then execDiscard b s
  else if s.phase = .lengthPending ∧ s.lcount = 0 then execLenHi b s
  else if s.phase = .lengthPending then execLenLo b s
  else if s.dcount.toNat < s.dlen.toNat then execData b s
  else execChecksum b s

end Sys2Proof.Machine
end

