-- ==== Sys2Proof/Machine/Encoder.lean ====
section
/-! DEFINITION. The frame encoder (41_encoder.md): BUILD_FRAME and the four command builders. -/

namespace Sys2Proof.Machine

/-- BUILD_FRAME (R132). -/
def execBuildFrame (ty : Byte) (content : List Byte) (s : State) : Result := s.sendFrame ty content

/-- AT_COMMAND (R135), type 0x08. -/
def execAtCommand (cmd : CmdName) (params : Option (List Byte)) (s : State) : Result :=
  s.sendFrame 0x08 (atContent cmd params)

/-- TRANSMIT_DATA (R136), type 0x10. -/
def execTransmitData (dest64 dest16 data : List Byte) (options radius : Option Byte) (s : State) : Result :=
  s.sendBuilt 0x10 (transmitContent s.cfg dest64 dest16 data options radius)

/-- REMOTE_AT (R137), type 0x17. -/
def execRemoteAt (dest64 dest16 : List Byte) (cmd : CmdName) (params : Option (List Byte)) (options : Option Byte)
    (s : State) : Result :=
  s.sendBuilt 0x17 (remoteContent s.cfg dest64 dest16 cmd params options)

/-- CREATE_SOURCE_ROUTE (R138), type 0x21. -/
def execCreateSourceRoute (dest64 dest16 : List Byte) (route : List (List Byte)) (s : State) : Result :=
  s.sendBuilt 0x21 (routeContent dest64 dest16 route)

end Sys2Proof.Machine
end

