-- ==== Sys2Proof/Machine/Dispatch.lean ====
section
/-! DEFINITION. What each instruction does: one arm per row of spec/opcode_table.json. -/

namespace Sys2Proof.Machine

def exec (i : Instr) (s : State) : Host.Outcome State Fault Refusal :=
  match i with
  | .rxByte b => Sys2Proof.Machine.execRxByte b s
  | .buildFrame ty content => Sys2Proof.Machine.execBuildFrame ty content s
  | .atCommand cmd params => Sys2Proof.Machine.execAtCommand cmd params s
  | .transmitData dest64 dest16 data options radius => Sys2Proof.Machine.execTransmitData dest64 dest16 data options radius s
  | .remoteAt dest64 dest16 cmd params options => Sys2Proof.Machine.execRemoteAt dest64 dest16 cmd params options s
  | .createSourceRoute dest64 dest16 route => Sys2Proof.Machine.execCreateSourceRoute dest64 dest16 route s
  | .status => Sys2Proof.Machine.execStatus s
  | .reset => Sys2Proof.Machine.execReset s
  | .sync b => Sys2Proof.Machine.execSync b s
  | .discard b => Sys2Proof.Machine.execDiscard b s
  | .lenHi b => Sys2Proof.Machine.execLenHi b s
  | .lenLo b => Sys2Proof.Machine.execLenLo b s
  | .data b => Sys2Proof.Machine.execData b s
  | .checksum c => Sys2Proof.Machine.execChecksum c s

end Sys2Proof.Machine
end

