-- ==== Sys2Proof/Machine/Step.lean ====
section
/-! DEFINITION. One step: one host operation (00_scope.md R8). -/

namespace Sys2Proof.Machine

/-- Take the next host operation and do it. With no operation delivered, nothing changes (60_exceptions.md R183). -/
def step (s : State) : Host.Outcome State Fault Refusal :=
  match s.fetch with
  | .ok none => .next s
  | .ok (some (i, t)) => exec i t
  | .error r => .refused r

/-- `s` with the table word `w` as the next host operation (log 9). -/
def State.withFetchWord (s : State) (nbits w : Nat) : State :=
  { s with opIn := fetchWordBytes nbits w ++ s.opIn }

end Sys2Proof.Machine
end

