-- ==== Sys2Proof/Safety.lean ====
section
/-! DEFINITION. The terms claims use: the invariant of reachable states, runs of host operations, the source's own view
of the decoder (10_state.md R20), and what each unit owns (10_state.md R32). -/

namespace Sys2Proof.Machine

/-- The first `n` bytes of the frame buffer: the frame data received, when `n = dcount` (20_memory.md R41). -/
def State.stored (s : State) (n : Nat) : List Byte := (List.range n).map s.bufByte

/-- What holds in every state a run reaches: 40_decoder.md R111, 10_state.md R22 to R27, the legal parameters of
00_scope.md R10, and the buffer's canonical form. -/
structure State.Inv (s : State) : Prop where
  cfgLegal : s.cfg.legal = true
  /-- R27. -/
  frameIdNonzero : s.frameId ≠ 0
  bufCanonical : s.dbuf.wf = true
  /-- R40: only indices 0..N_BUF-1 exist. -/
  bufInRange : ∀ c ∈ s.dbuf, c.1 < s.cfg.nBuf
  /-- R111, first item. -/
  whenIdle : s.phase = .idle → s.lcount = 0 ∧ s.dlen = 0 ∧ s.dcount = 0 ∧ s.dsum = 0
  /-- R111, second item; after LEN_HI the low byte of `dlen` is 0 (R103). -/
  whenLength : s.phase = .lengthPending →
    s.dcount = 0 ∧ s.dsum = 0 ∧ (s.lcount = 0 → s.dlen = 0) ∧ lo s.dlen = 0
  /-- R111, third item. -/
  whenPayload : s.phase = .payloadPending → s.lcount = 0 ∧ s.dcount.toNat ≤ s.dlen.toNat
  /-- R41: the frame data received stand at their indices. -/
  payloadStored : s.phase = .payloadPending → ∀ i, i < s.dcount.toNat → i < s.cfg.nBuf → (s.dbuf.read i).isSome = true
  /-- R111, third item: `dsum`, while every byte received is stored. -/
  payloadSum : s.phase = .payloadPending → s.dcount.toNat ≤ s.cfg.nBuf →
    s.dsum = BitVec.ofNat 8 (sumBytes (s.stored s.dcount.toNat))

/-- A sequence of instructions, each applied to the state the one before it left (00_scope.md R9, 20_memory.md R51). -/
def runOps : List Instr → State → Result
  | [], s => .next s
  | i :: is, s =>
    match exec i s with
    | .next t => runOps is t
    | .fault f => .fault f
    | .refused r => .refused r

/-- RX_CHUNK: a chunk is the RX_BYTE of each of its bytes (30_encoding.md R72, R77). -/
def rxChunk (w : List Byte) : List Instr := w.map .rxByte

/-- Chunks delivered one after the other. -/
def deliver : List (List Byte) → State → Result
  | [], s => .next s
  | w :: ws, s =>
    match runOps (rxChunk w) s with
    | .next t => deliver ws t
    | .fault f => .fault f
    | .refused r => .refused r

/-- The host adds the RX_BYTE operations of a chunk to the stream of operations, in the serial form (log 1). -/
def State.offer (s : State) (w : List Byte) : State := { s with opIn := s.opIn ++ encodeAll (rxChunk w) }

/-- A delivery over time: each chunk is added to the stream, and the codec then takes the given number of steps. With
fewer steps than operations the rest of them wait; with more, the rest of the steps are idle (70_reset_and_hazards.md
R195). -/
def deliverInSteps : List (List Byte × Nat) → State → Result
  | [], s => .next s
  | (w, k) :: schedule, s =>
    match Host.Core.run Sys2Proof.core k (s.offer w) with
    | .next t => deliverInSteps schedule t
    | .fault f => .fault f
    | .refused r => .refused r

/-- A frame on the wire (30_encoding.md R60): `d` is the frame data, at most 65535 bytes. -/
def wireFrame (d : List Byte) (c : Byte) : List Byte :=
  [0x7E, hi (BitVec.ofNat 16 d.length), lo (BitVec.ofNat 16 d.length)] ++ d ++ [c]

/-- What a completed frame that fits the buffer, and is not empty, gives: the data if its checksum is valid, else a drop
(40_decoder.md R107 to R110). -/
def frameEvent (f : List Byte × Byte) : Event :=
  if (sumBytes f.1 + f.2.toNat) % 256 = 0xFF then .frameOut f.1 else .drop .checksum

/-- The frames sent on the TX channel, in order. -/
def txFrames : List Event → List (List Byte)
  | [] => []
  | .txFrame bs :: es => bs :: txFrames es
  | .frameOut _ :: es => txFrames es
  | .drop _ :: es => txFrames es
  | .err _ :: es => txFrames es
  | .statusOut _ :: es => txFrames es

/-- The source's partial-frame buffer `P` (10_state.md R20): the bytes received since the sync byte, that byte excluded. -/
def State.partialFrame (s : State) : Option (List Byte) :=
  match s.phase with
  | .idle => none
  | .lengthPending => if s.lcount = 0 then some [] else some [hi s.dlen]
  | .payloadPending => some ([hi s.dlen, lo s.dlen] ++ s.stored s.dcount.toNat)

/-- The source's decoder over `P` alone, one byte at a time, with an unbounded buffer: scan for the delimiter; take two
length bytes, then that many frame data bytes, then the checksum byte; then emit or drop (40_decoder.md R101 to R110). -/
def sourceDecode (pEmpty : EmptyPolicy) : Option (List Byte) → Byte → Option (List Byte) × Option Event
  | none, b => (if b = 0x7E then some [] else none, none)
  | some (h :: l :: d), b =>
    if d.length < h.toNat * 256 + l.toNat then (some (h :: l :: d ++ [b]), none)
    else if (sumBytes d + b.toNat) % 256 ≠ 0xFF then (none, some (.drop .checksum))
    else if d = [] ∧ pEmpty = .drop then (none, some (.drop .empty))
    else (none, some (.frameOut d))
  | some p, b => (some (p ++ [b]), none)

/-- The source's decoder over bytes in order: the partial-frame buffer it ends with and the events it emits. -/
def sourceRun (pEmpty : EmptyPolicy) : Option (List Byte) → List Byte → Option (List Byte) × List Event
  | p, [] => (p, [])
  | p, b :: w =>
    let now := sourceDecode pEmpty p b
    let later := sourceRun pEmpty now.1 w
    (later.1, now.2.toList ++ later.2)

/-- The decoder unit's state (10_state.md R20 to R26, R29). -/
structure DecoderPart where
  phase     : Phase
  lcount    : BitVec 1
  dlen      : U16
  dcount    : U16
  dsum      : Byte
  dbuf      : Memory
  dropCount : BitVec 32
  deriving DecidableEq, Repr

def State.decoderPart (s : State) : DecoderPart where
  phase := s.phase
  lcount := s.lcount
  dlen := s.dlen
  dcount := s.dcount
  dsum := s.dsum
  dbuf := s.dbuf
  dropCount := s.dropCount

/-- The decoder unit's channels, and the encoder unit's (30_encoding.md R71). -/
def Event.fromDecoder (e : Event) : Bool := e.channel == .FRAME_OUT || e.channel == .DIAG

def Event.fromEncoder (e : Event) : Bool := e.channel == .TX || e.channel == .ERR

/-- The six rows of the action table (30_encoding.md R73), in order: does each row's condition hold? -/
def actionConditions (s : State) (b : Byte) : List Bool :=
  [decide (s.phase = .idle) && decide (b = 0x7E),
   decide (s.phase = .idle) && decide (b ≠ 0x7E),
   decide (s.phase = .lengthPending) && decide (s.lcount = 0),
   decide (s.phase = .lengthPending) && decide (s.lcount = 1),
   decide (s.phase = .payloadPending) && decide (s.dcount < s.dlen),
   decide (s.phase = .payloadPending) && decide (s.dcount = s.dlen)]

/-- The buffer index an instruction stores to, if any: `dcount`, where DATA is selected and the index exists
(20_memory.md R41). -/
def storeIndex (s : State) : Instr → Option Nat
  | .rxByte b => if s.select b = .data b ∧ s.dcount.toNat < s.cfg.nBuf then some s.dcount.toNat else none
  | .data b => if s.select b = .data b ∧ s.dcount.toNat < s.cfg.nBuf then some s.dcount.toNat else none
  | .buildFrame _ _ => none
  | .atCommand _ _ => none
  | .transmitData _ _ _ _ _ => none
  | .remoteAt _ _ _ _ _ => none
  | .createSourceRoute _ _ _ => none
  | .status => none
  | .reset => none
  | .sync _ => none
  | .discard _ => none
  | .lenHi _ => none
  | .lenLo _ => none
  | .checksum _ => none

/-- `a` with zero bytes before it, `n` bytes in all when `a` has at most `n`. -/
def padLeft (n : Nat) (a : List Byte) : List Byte := List.replicate (n - a.length) 0x00 ++ a

/-- Two states that differ at most in buffer bytes the current frame has not written (10_state.md R29). -/
def SameButStaleBuffer (s t : State) : Prop :=
  t = { s with dbuf := t.dbuf } ∧
    (s.phase = .payloadPending → ∀ i, i < s.dcount.toNat → i < s.cfg.nBuf → s.bufByte i = t.bufByte i)

end Sys2Proof.Machine
end

