-- ==== Sys2Proof/Certificates/Slice0/Obligations.lean ====
section
/-! DEFINITION. The statements for the provers. Each docstring names the rule of spec/ it formalises; "log n" is
notes/assumptions/n.md. -/

open Sys2Proof Sys2Proof.Machine

/-! ### Parameters, reset, the invariant, and the step -/

/-- R10: the parameters' defaults and legal ranges (where they are held is the model's, log 5): in every state the fixed
ones have their value, and no instruction changes a parameter. -/
def Obligations.ParametersOfTheCodec : Prop :=
  (∀ c : Config, c.sync.value = 0x7E ∧ c.cntW.value = 32 ∧ c.maxContent.value = 65533 ∧ c.fidFirst.value = 1 ∧
    c.txOptDefault.value = 0x00 ∧ c.txRadiusDefault.value = 0x00 ∧ c.ratOptDefault.value = 0x02 ∧
    (c.legal = true ↔ 1 ≤ c.nBuf ∧ c.nBuf ≤ 65535) ∧ (c.pEmpty = .drop ∨ c.pEmpty = .emit)) ∧
  State.reset.cfg.nBuf = 65535 ∧ State.reset.cfg.pEmpty = .drop ∧
  ∀ (i : Instr) (s t : State), exec i s = .next t → t.cfg = s.cfg

/-- R33, R190: the registers of a fresh instance. -/
def Obligations.ResetRegisterValues : Prop :=
  State.reset.phase = .idle ∧ State.reset.lcount = 0 ∧ State.reset.dlen = 0x0000 ∧ State.reset.dcount = 0x0000 ∧
    State.reset.dsum = 0x00 ∧ State.reset.dropCount = 0x00000000 ∧ State.reset.frameId = 0x01

/-- R111, R27, R10: the reset state meets the invariant. -/
def Obligations.ResetMeetsInvariant : Prop := State.reset.Inv

/-- R111, R27, R41, R10: from every state that meets the invariant, a step gives a state that meets it. -/
def Obligations.StepKeepsInvariant : Prop :=
  ∀ s t : State, s.Inv → step s = .next t → t.Inv

/-- R8, R70 in the model's serial form (log 1): a step takes the operation's bytes off the stream and runs it. -/
def Obligations.StepRunsDecodedOperation : Prop :=
  ∀ (s : State) (i : Instr) (rest : List Byte), decode s.opIn = .ok (i, rest) → step s = exec i { s with opIn := rest }

/-- R9, R51 in the model's serial form (log 1): as many steps as operations delivered do those operations in order. -/
def Obligations.StepsRunTheOperationsInOrder : Prop :=
  ∀ (is : List Instr) (s : State) (rest : List Byte), (∀ i ∈ is, i.isHostOp = true) →
    s.opIn = encodeAll is ++ rest → Host.Core.run Sys2Proof.core is.length s = runOps is { s with opIn := rest }

/-- R183: when the host delivers no operation, the state does not change. -/
def Obligations.NoOperationNoChange : Prop :=
  ∀ s : State, s.opIn = [] → step s = .next s

/-- R184, R74 in the model's serial form (logs 1, 2): an unassigned operation code is refused, for the whole run. -/
def Obligations.UnassignedCodeRefused : Prop :=
  ∀ (s : State) (code : BitVec 4) (rest : List Byte),
    code = 0x0 ∨ code = 0x7 ∨ code = 0x8 ∨ code = 0x9 ∨ code = 0xA ∨ code = 0xB ∨ code = 0xC ∨ code = 0xD →
    s.opIn = code.zeroExtend 8 :: rest →
    step s = .refused (.unassignedOpcode code) ∧
      ∀ k, Host.Core.run Sys2Proof.core (k + 1) s = .refused (.unassignedOpcode code)

/-- R179, R202: every host operation is available in every state; it never faults and is never refused. -/
def Obligations.HostOperationsAlwaysComplete : Prop :=
  ∀ (i : Instr) (s : State), i.isHostOp = true → ∃ t, exec i s = .next t

/-- R40, R41, R42: no step reads or writes an index outside the buffer. -/
def Obligations.StepNeverFaults : Prop :=
  ∀ (s : State) (f : Fault), step s ≠ .fault f

/-! ### Encoding -/

/-- R70 in the model's serial form (log 1): no operand of a host operation is lost. -/
def Obligations.DecodeOfEncode : Prop :=
  ∀ (i : Instr) (rest : List Byte), i.isHostOp = true → decode (encode i ++ rest) = .ok (i, rest)

/-- R70 in the model's serial form (log 1): what decodes is a well-formed host operation, and its encoding is the bytes
taken: each stream has one meaning. -/
def Obligations.EncodeOfDecode : Prop :=
  ∀ (bs : List Byte) (i : Instr) (rest : List Byte), decode bs = .ok (i, rest) →
    i.isHostOp = true ∧ i.wf = true ∧ encode i ++ rest = bs

/-- R73: the action each row of the table selects, and exactly one row matches where `dcount <= dlen`. -/
def Obligations.ActionTableSelectsOneRow : Prop :=
  ∀ (s : State) (b : Byte),
    (s.phase = .idle → b = 0x7E → s.select b = .sync b) ∧
    (s.phase = .idle → b ≠ 0x7E → s.select b = .discard b) ∧
    (s.phase = .lengthPending → s.lcount = 0 → s.select b = .lenHi b) ∧
    (s.phase = .lengthPending → s.lcount = 1 → s.select b = .lenLo b) ∧
    (s.phase = .payloadPending → s.dcount < s.dlen → s.select b = .data b) ∧
    (s.phase = .payloadPending → s.dcount = s.dlen → s.select b = .checksum b) ∧
    (s.dcount ≤ s.dlen → (actionConditions s b).count true = 1)

/-- R73: an action's word is the inbound byte, a selected action is well formed, and every well-formed action is
selected by its word in some state. -/
def Obligations.ActionWordsRoundTrip : Prop :=
  (∀ (s : State) (b : Byte), (s.select b).isHostOp = false ∧ (s.select b).wf = true ∧ encode (s.select b) = [b]) ∧
    ∀ i : Instr, i.isHostOp = false → i.wf = true → ∃ (s : State) (b : Byte), encode i = [b] ∧ s.select b = i

/-- R70, R76 in the model's serial form (logs 1, 2): words written out from the tables. -/
def Obligations.WrittenWordsDecode : Prop :=
  decode [0x01, 0x7E] = .ok (.rxByte 0x7E, []) ∧
  decode [0x02, 0x08, 0x01, 0x43, 0x01, 0x48, 0x00] = .ok (.buildFrame 0x08 [0x43, 0x48], []) ∧
  decode [0x03, 0x43, 0x48, 0x00] = .ok (.atCommand ⟨0x43, 0x48⟩ none, []) ∧
  decode [0x06, 0x00, 0x00, 0x01, 0x01, 0xAA, 0x01, 0xBB, 0x00, 0x00] =
    .ok (.createSourceRoute [] [] [[0xAA, 0xBB]], []) ∧
  decode [0x0E] = .ok (.status, []) ∧ decode [0x0F] = .ok (.reset, []) ∧
  selectAction Config.default .idle 0 0 0 0x7E = .sync 0x7E ∧ selectAction Config.default .idle 0 0 0 0x00 = .discard 0x00

/-! ### The decoder -/

/-- R100: RX_BYTE does the action of the first test that holds, and accepts every byte in every phase. -/
def Obligations.RxByteDoesTheSelectedAction : Prop :=
  ∀ (s : State) (b : Byte),
    exec (.rxByte b) s =
      (if s.phase = .idle ∧ b = 0x7E then exec (.sync b) s
      else if s.phase = .idle then exec (.discard b) s
      else if s.phase = .lengthPending ∧ s.lcount = 0 then exec (.lenHi b) s
      else if s.phase = .lengthPending ∧ s.lcount = 1 then exec (.lenLo b) s
      else if s.phase = .payloadPending ∧ s.dcount < s.dlen then exec (.data b) s
      else exec (.checksum b) s) ∧
    (Instr.rxByte b).opcode = some 0x1 ∧ exec (.rxByte b) s = exec (s.select b) s ∧
    ∃ t, exec (.rxByte b) s = .next t

/-- R101: SYNC; by R111 the frame's registers are already 0. -/
def Obligations.SyncStartsAFrame : Prop :=
  ∀ (s : State) (b : Byte), s.phase = .idle → b = 0x7E →
    s.select b = .sync b ∧
    exec (.sync b) s = .next { s with phase := .lengthPending, lcount := 0 } ∧
    (s.Inv → s.dlen = 0 ∧ s.dcount = 0 ∧ s.dsum = 0)

/-- R102: DISCARD writes nothing and emits nothing. -/
def Obligations.DiscardChangesNothing : Prop :=
  ∀ (s : State) (b : Byte), s.phase = .idle → b ≠ 0x7E →
    s.select b = .discard b ∧ exec (.discard b) s = .next s

/-- R103: LEN_HI, for every byte. -/
def Obligations.LenHiSetsTheHighByte : Prop :=
  ∀ (s : State) (b : Byte), s.phase = .lengthPending → s.lcount = 0 →
    s.select b = .lenHi b ∧
    ∃ t, exec (.lenHi b) s = .next t ∧ t = { s with dlen := t.dlen, lcount := 1 } ∧
      t.dlen.toNat = b.toNat * 256 ∧ t.dlen.extractLsb' 8 8 = b ∧ t.dlen.extractLsb' 0 8 = (0 : BitVec 8)

/-- R104: LEN_LO, for every byte; a length of 0 makes the next byte the checksum byte, and any length makes the next
`dlen` bytes frame data, whatever they are. -/
def Obligations.LenLoOpensThePayload : Prop :=
  ∀ (s : State) (b : Byte), s.phase = .lengthPending → s.lcount = 1 →
    s.select b = .lenLo b ∧
    ∃ t, exec (.lenLo b) s = .next t ∧
      t = { s with dlen := s.dlen + b.zeroExtend 16, lcount := 0, dcount := 0, dsum := 0, phase := .payloadPending } ∧
      (s.Inv → t.dlen.extractLsb' 0 8 = b ∧ t.dlen.extractLsb' 8 8 = s.dlen.extractLsb' 8 8) ∧
      (t.dlen = 0 → ∀ c, t.select c = .checksum c) ∧
      ∀ w : List Byte, w.length = t.dlen.toNat →
        ∃ u, runOps (rxChunk w) t = .next u ∧ u.phase = .payloadPending ∧ u.dcount = t.dlen ∧ u.events = t.events

/-- R43, R103, R104: the two length bytes are big-endian. -/
def Obligations.LengthFieldIsBigEndian : Prop :=
  ∀ (s : State) (b1 b2 : Byte), s.phase = .lengthPending → s.lcount = 0 →
    ∃ t, runOps (rxChunk [b1, b2]) s = .next t ∧ t.phase = .payloadPending ∧
      t.dlen.toNat = b1.toNat * 256 + b2.toNat ∧ t.events = s.events

/-- R105: outside IDLE the byte's value plays no part in which action is done, and that action is not SYNC. -/
def Obligations.NoRetriggerOutsideIdle : Prop :=
  ∀ s : State, s.phase ≠ .idle →
    ∃ act : Byte → Instr, (act = .lenHi ∨ act = .lenLo ∨ act = .data ∨ act = .checksum) ∧ ∀ b, s.select b = act b

/-- R106: DATA stores the byte at index `dcount` when that is below `N_BUF`, sums and counts it. A frame longer than the
buffer is dropped as OVERSIZE when its checksum is valid; at `N_BUF` = 65535 every byte is stored. -/
def Obligations.DataStoresSumsAndCounts : Prop :=
  ∀ (s : State) (b : Byte), s.phase = .payloadPending → s.dcount < s.dlen →
    s.select b = .data b ∧
    ∃ t, exec (.data b) s = .next t ∧
      t = { s with dbuf := t.dbuf, dsum := t.dsum, dcount := t.dcount } ∧
      t.dsum.toNat = (s.dsum.toNat + b.toNat) % 256 ∧
      t.dcount.toNat = s.dcount.toNat + 1 ∧ t.dcount ≤ t.dlen ∧
      (s.dcount.toNat < s.cfg.nBuf → t.dbuf.read s.dcount.toNat = some b) ∧
      (s.cfg.nBuf ≤ s.dcount.toNat → t.dbuf = s.dbuf) ∧ (s.cfg.nBuf = 65535 → s.dcount.toNat < s.cfg.nBuf) ∧
      (s.cfg.nBuf < s.dlen.toNat → ∀ (u v : State) (c : Byte), u.cfg = s.cfg → u.dlen = s.dlen → csumOk u.dsum c = true →
        exec (.checksum c) u = .next v → v.events = u.events ++ [.drop .oversize]) ∧
      ∀ a, a ≠ s.dcount.toNat → t.dbuf.read a = s.dbuf.read a

/-- R107, R108, R110: CHECKSUM emits the frame or drops it with the first reason that applies, and returns to IDLE with
the framing registers 0. The bytes emitted are the buffer's (for one nothing has written, log 6's free value, whatever
it is). With `dlen = 0` the frame is valid only for the byte 0xFF. -/
def Obligations.ChecksumCompletesTheFrame : Prop :=
  ∀ (s : State) (c : Byte), s.phase = .payloadPending → s.dcount = s.dlen →
    s.select c = .checksum c ∧
    (let idle : State := { s with phase := .idle, lcount := 0, dlen := 0, dcount := 0, dsum := 0 }
     let dropped (r : DropReason) : State :=
       { idle with dropCount := BitVec.ofNat 32 (min (s.dropCount.toNat + 1) 0xFFFFFFFF), events := s.events ++ [.drop r] }
     exec (.checksum c) s = .next
       (if csumOk s.dsum c = false then dropped .checksum
        else if s.dlen = 0 ∧ s.cfg.pEmpty = .drop then dropped .empty
        else if s.cfg.nBuf < s.dlen.toNat then dropped .oversize
        else { idle with events := s.events ++ [.frameOut ((List.range s.dlen.toNat).map s.bufByte)] })) ∧
    (s.Inv → s.dlen = 0 → (csumOk s.dsum c = true ↔ c = 0xFF)) ∧
    (s.cfg.nBuf = 65535 → ¬ s.cfg.nBuf < s.dlen.toNat)

/-- R108: the checksum predicate and its equivalent forms; and what is summed is exactly the frame data: neither the sync
byte nor the length bytes. -/
def Obligations.ChecksumPredicateForms : Prop :=
  (∀ dsum c : Byte,
    (csumOk dsum c = true ↔ (dsum.toNat + c.toNat) % 256 = 0xFF) ∧
    (csumOk dsum c = true ↔ dsum.toNat + c.toNat = 0xFF) ∧
    (csumOk dsum c = true ↔ c = 0xFF - dsum) ∧
    (0xFF : Byte) - dsum = ~~~dsum) ∧
  (∀ (d : List Byte) (c : Byte),
    csumOk (BitVec.ofNat 8 (sumBytes d % 256)) c = true ↔ (sumBytes d + c.toNat) % 256 = 0xFF) ∧
  ∀ (s : State) (b1 b2 : Byte) (d : List Byte), s.phase = .idle → d.length ≤ b1.toNat * 256 + b2.toNat →
    ∃ t, runOps (rxChunk ([0x7E, b1, b2] ++ d)) s = .next t ∧ t.dsum.toNat = sumBytes d % 256

/-- R175: the drop reason is the first that applies, in the order CHECKSUM, EMPTY, OVERSIZE; the last two exclude each
other because `N_BUF >= 1`. -/
def Obligations.DropReasonOrder : Prop :=
  ∀ (s t : State) (c : Byte) (r : DropReason), s.phase = .payloadPending → s.dcount = s.dlen →
    exec (.checksum c) s = .next t → t.events = s.events ++ [.drop r] →
    (r = .checksum ↔ csumOk s.dsum c = false) ∧
    (r = .empty ↔ csumOk s.dsum c = true ∧ s.dlen = 0 ∧ s.cfg.pEmpty = .drop) ∧
    (r = .oversize ↔ csumOk s.dsum c = true ∧ ¬(s.dlen = 0 ∧ s.cfg.pEmpty = .drop) ∧ s.cfg.nBuf < s.dlen.toNat) ∧
    (s.cfg.legal = true → ¬(s.dlen = 0 ∧ s.cfg.nBuf < s.dlen.toNat))

/-- Log 7 (R73): an action is done exactly where the table selects it for its byte. -/
def Obligations.ActionsDoneOnlyWhereSelected : Prop :=
  ∀ (i : Instr) (b : Byte) (s : State), i.isHostOp = false → encode i = [b] →
    ((∃ t, exec i s = .next t) ↔ s.select b = i)

/-- R112 (the spec marks it derived), in steps of the machine (serial form: log 1): chunks added to the stream piece by
piece, with any number of steps after each, too few for its bytes or idle ones beyond them, and enough steps at the end,
reach the one state that the whole stream reaches, with the same events in the same order; and by R20 what that state
holds and those events are what the source's decoder gives on the bytes in order. -/
def Obligations.ChunkIndependence : Prop :=
  ∀ (schedule : List (List Byte × Nat)) (s : State) (n : Nat), s.opIn = [] →
    let w := (schedule.map Prod.fst).flatten
    w.length ≤ n →
    ∃ t, (∃ u, deliverInSteps schedule s = .next u ∧ Host.Core.run Sys2Proof.core n u = .next t) ∧
      Host.Core.run Sys2Proof.core n (s.offer w) = .next t ∧ t.opIn = [] ∧
      (s.Inv → s.cfg.nBuf = 65535 →
        t.partialFrame = (sourceRun s.cfg.pEmpty s.partialFrame w).1 ∧
        t.events = s.events ++ (sourceRun s.cfg.pEmpty s.partialFrame w).2)

/-- R113 (the spec marks it derived): a valid frame of 1 to `N_BUF` data bytes, with any bytes but 0x7E before it, is emitted whole, once, on its
last byte, and the decoder ends in IDLE with the framing registers 0; nothing before the last byte is emitted. -/
def Obligations.ExactConsumption : Prop :=
  ∀ (s : State) (garbage d : List Byte) (c : Byte), s.Inv → s.phase = .idle → (∀ b ∈ garbage, b ≠ 0x7E) →
    1 ≤ d.length → d.length ≤ s.cfg.nBuf → (sumBytes d + c.toNat) % 256 = 0xFF →
    (∃ u, runOps (rxChunk (garbage ++ (wireFrame d c).dropLast)) s = .next u ∧ u.events = s.events) ∧
    ∃ t, runOps (rxChunk (garbage ++ wireFrame d c)) s = .next t ∧
      t = { s with dbuf := t.dbuf, events := s.events ++ [.frameOut d] }

/-- R115 (the spec marks it derived): bytes other than 0x7E, received in IDLE, leave no trace. -/
def Obligations.GarbageLeavesNoTrace : Prop :=
  ∀ (s : State) (garbage : List Byte), s.phase = .idle → (∀ b ∈ garbage, b ≠ 0x7E) →
    runOps (rxChunk garbage) s = .next s

/-- R114 (the spec marks it derived), R110: frames of 1 to `N_BUF` data bytes, valid or corrupted, one after the other: each is emitted whole or
dropped, in order, and leaves the decoder in IDLE with the framing registers 0, so no byte leaks into the next. -/
def Obligations.FramesBackToBack : Prop :=
  ∀ (frames : List (List Byte × Byte)) (s : State), s.Inv → s.phase = .idle →
    (∀ f ∈ frames, 1 ≤ f.1.length ∧ f.1.length ≤ s.cfg.nBuf) →
    ∃ t, runOps (rxChunk (frames.map fun f => wireFrame f.1 f.2).flatten) s = .next t ∧
      t = { s with dbuf := t.dbuf, dropCount := t.dropCount, events := s.events ++ frames.map frameEvent }

/-- R198, R199: while frame data bytes are missing, every byte is taken as one of them, whatever its value, and nothing
is emitted. -/
def Obligations.PayloadAbsorbsEveryByte : Prop :=
  ∀ (s : State) (w : List Byte), s.phase = .payloadPending → s.dcount.toNat + w.length ≤ s.dlen.toNat →
    ∃ t, runOps (rxChunk w) s = .next t ∧
      t = { s with dbuf := t.dbuf, dcount := t.dcount, dsum := t.dsum } ∧
      t.dcount.toNat = s.dcount.toNat + w.length ∧ t.dsum.toNat = (s.dsum.toNat + sumBytes w) % 256

/-- R20: at the default buffer size, the registers hold exactly the source's partial-frame buffer, and each RX_BYTE does
to it, and emits, what the source's decoder does. -/
def Obligations.DecoderRefinesTheSource : Prop :=
  ∀ (s t : State) (b : Byte), s.Inv → s.cfg.nBuf = 65535 → exec (.rxByte b) s = .next t →
    t.partialFrame = (sourceDecode s.cfg.pEmpty s.partialFrame b).1 ∧
    t.events = s.events ++ (sourceDecode s.cfg.pEmpty s.partialFrame b).2.toList

/-- R29 (the spec marks it derived): buffer bytes the current frame has not written are never observable: two states that differ in such bytes
alone do the same, emit the same, and go on differing in such bytes alone. Holds whatever log 6's free value is. -/
def Obligations.StaleBufferUnobservable : Prop :=
  ∀ (i : Instr) (s t s' : State), SameButStaleBuffer s t → exec i s = .next s' →
    ∃ t', exec i t = .next t' ∧ SameButStaleBuffer s' t'

/-! ### The counters, frames and units -/

/-- R26: `drop_count` counts each drop, saturating at 0xFFFFFFFF; only RESET clears it and nothing else changes it. -/
def Obligations.DropCountCountsDrops : Prop :=
  ∀ (i : Instr) (s t : State), exec i s = .next t →
    (∀ r, t.events = s.events ++ [.drop r] →
      t.dropCount = if s.dropCount = 0xFFFFFFFF then 0xFFFFFFFF else s.dropCount + 1) ∧
    (i = .reset → t.dropCount = 0) ∧
    (i ≠ .reset → (∀ r, t.events ≠ s.events ++ [.drop r]) → t.dropCount = s.dropCount)

/-- R32, R28, R10: what the decoder's operations leave alone: RX_BYTE and the six actions. -/
def Obligations.DecoderOperationsFrame : Prop :=
  ∀ (i : Instr) (s t : State), i.unit = .decoder → exec i s = .next t →
    t.frameId = s.frameId ∧ t.cfg = s.cfg ∧ t.opIn = s.opIn ∧
    ∀ a, storeIndex s i ≠ some a → t.dbuf.read a = s.dbuf.read a

/-- R32, R10: what the encoder's operations leave alone: BUILD_FRAME and the four command builders. -/
def Obligations.EncoderOperationsFrame : Prop :=
  ∀ (i : Instr) (s t : State), i.unit = .encoder → exec i s = .next t →
    t = { s with frameId := t.frameId, events := t.events } ∧ t.decoderPart = s.decoderPart ∧
    ∀ a, t.dbuf.read a = s.dbuf.read a

/-- R41, R160, R161: the buffer changes only at the index `storeIndex` gives, in every instruction; the parameters and
the operations not yet taken never change. -/
def Obligations.OnlyDataWritesTheBuffer : Prop :=
  ∀ (i : Instr) (s t : State), exec i s = .next t →
    t.cfg = s.cfg ∧ t.opIn = s.opIn ∧ (∀ a, storeIndex s i ≠ some a → t.dbuf.read a = s.dbuf.read a) ∧
    ∀ a, storeIndex s i = some a → ∃ b, t.dbuf.read a = some b

/-- R176 (the spec marks it derived): at most one event a step; a decoder operation's is FRAME_OUT or DROP, and an encoder operation emits exactly
one, TX_FRAME or ERR. -/
def Obligations.AtMostOneEvent : Prop :=
  ∀ (i : Instr) (s t : State), exec i s = .next t →
    ∃ new, t.events = s.events ++ new ∧ new.length ≤ 1 ∧
      (i.unit = .decoder → ∀ e ∈ new, (∃ d, e = .frameOut d) ∨ ∃ r, e = .drop r) ∧
      (i.unit = .encoder → (∃ bs, new = [.txFrame bs]) ∨ ∃ e, new = [.err e])

/-- R53, R32 (the spec marks both derived): in any interleaving of host operations, each unit ends in the state, and emits the events on its channels,
that it would if the other unit's operations were left out. -/
def Obligations.UnitsAreIndependent : Prop :=
  ∀ (is : List Instr) (s t : State), (∀ i ∈ is, i.isHostOp = true) → runOps is s = .next t →
    (∃ u, runOps (is.filter fun i => i.unit != .encoder) s = .next u ∧ u.decoderPart = t.decoderPart ∧
      u.events.filter Event.fromDecoder = t.events.filter Event.fromDecoder) ∧
    ∃ v, runOps (is.filter fun i => i.unit != .decoder) s = .next v ∧ v.frameId = t.frameId ∧
      v.events.filter Event.fromEncoder = t.events.filter Event.fromEncoder

/-! ### The encoder -/

/-- R130: ADDR_NORM pads on the left to exactly `size` bytes, and errs on a longer field. -/
def Obligations.AddrNormPadsOrErrs : Prop :=
  ∀ (a : List Byte) (size : Nat), size = 8 ∨ size = 2 →
    (a.length > size → addrNorm a size = .error .addrTooLong) ∧
    (a.length ≤ size → ∃ n, addrNorm a size = .ok n ∧ n = List.replicate (size - a.length) 0x00 ++ a ∧ n.length = size) ∧
    (a.length = size → addrNorm a size = .ok a) ∧ addrNorm [] size = .ok (List.replicate size 0x00)

/-- R131: the checksum makes the frame data and it sum to 0xFF mod 256; it is the complement of the sum, and the
decoder's check accepts it; and the encoder computes it from the type byte through the last content byte. -/
def Obligations.ChecksumFunction : Prop :=
  (∀ d : List Byte,
    (checksumOf d).toNat = 0xFF - sumBytes d % 256 ∧
    checksumOf d = ~~~(BitVec.ofNat 8 (sumBytes d % 256)) ∧
    (sumBytes d + (checksumOf d).toNat) % 256 = 0xFF ∧
    csumOk (BitVec.ofNat 8 (sumBytes d % 256)) (checksumOf d) = true) ∧
  ∀ (ty : Byte) (content : List Byte) (s : State), content.length ≤ 65533 →
    ∃ t head, exec (.buildFrame ty content) s = .next t ∧ head.length = 3 ∧
      t.events = s.events ++ [.txFrame (head ++ ([ty, s.frameId] ++ content) ++ [checksumOf ([ty, s.frameId] ++ content)])]

/-- R132: BUILD_FRAME sends `7E hi(L) lo(L) type fid content checksum` and advances the identifier; a content longer
than 65533 bytes raises ENC_LENGTH_OVERFLOW. -/
def Obligations.BuildFrameSendsTheFrame : Prop :=
  ∀ (ty : Byte) (content : List Byte) (s : State),
    (content.length ≤ 65533 →
      ∃ len : U16, len.toNat = content.length + 2 ∧
        exec (.buildFrame ty content) s = .next { s with
          frameId := if s.frameId = 255 then 1 else s.frameId + 1
          events := s.events ++ [.txFrame ([0x7E, len.extractLsb' 8 8, len.extractLsb' 0 8] ++ ([ty, s.frameId] ++ content)
            ++ [checksumOf ([ty, s.frameId] ++ content)])] }) ∧
    (65533 < content.length →
      exec (.buildFrame ty content) s = .next { s with events := s.events ++ [.err .lengthOverflow] }) ∧
    (Instr.buildFrame ty content).opcode = some 0x2 ∧
    (s.frameId ≠ 0 → (if s.frameId = 255 then 1 else s.frameId + 1) ≠ 0)

/-- R133: a content longer than 65533 bytes, given to BUILD_FRAME or assembled by a command builder, raises
ENC_LENGTH_OVERFLOW; nothing is sent and `frame_id` does not change. -/
def Obligations.LengthLimit : Prop :=
  ∀ s : State,
    let overflow : Result := .next { s with events := s.events ++ [.err .lengthOverflow] }
    s.cfg.maxContent.value = 65535 - 2 ∧
    (∀ ty content, 65533 < content.length → exec (.buildFrame ty content) s = overflow) ∧
    (∀ cmd params, 65531 < params.length → exec (.atCommand cmd (some params)) s = overflow) ∧
    (∀ dest64 dest16 data options radius, dest64.length ≤ 8 → dest16.length ≤ 2 → 65521 < data.length →
      exec (.transmitData dest64 dest16 data options radius) s = overflow) ∧
    (∀ dest64 dest16 cmd params options, dest64.length ≤ 8 → dest16.length ≤ 2 → 65520 < params.length →
      exec (.remoteAt dest64 dest16 cmd (some params) options) s = overflow) ∧
    ∀ dest64 dest16 route, exec (.createSourceRoute dest64 dest16 route) s ≠ overflow

/-- R134 (the spec marks it derived): counting from reset (`frame_id` 1), the k-th frame sent carries the identifier ((k-1) mod 255) + 1; a failed
operation does not count. Here k counts from 0. -/
def Obligations.FrameIdSequence : Prop :=
  ∀ (is : List Instr) (s t : State), (∀ i ∈ is, i.isHostOp = true ∧ i ≠ .reset) → s.frameId = 1 →
    runOps is s = .next t →
    ∃ new, t.events = s.events ++ new ∧
      t.frameId.toNat = (txFrames new).length % 255 + 1 ∧
      ∀ k bs, (txFrames new)[k]? = some bs → (bs[4]?).map BitVec.toNat = some (k % 255 + 1)

/-- R135: AT_COMMAND is BUILD_FRAME of type 0x08 and content `cmd ++ params`, with `params` `[]` when omitted. -/
def Obligations.AtCommandBuildsItsFrame : Prop :=
  ∀ (cmd : CmdName) (params : Option (List Byte)) (s : State),
    let content := [cmd.c0, cmd.c1] ++ params.getD []
    exec (.atCommand cmd params) s = exec (.buildFrame 0x08 content) s ∧
    ((params.getD []).length ≤ 65531 → exec (.atCommand cmd params) s =
      .next { s with frameId := nextFid s.frameId, events := s.events ++ [.txFrame (frameBytes s.cfg 0x08 s.frameId content)] }) ∧
    (65531 < (params.getD []).length →
      exec (.atCommand cmd params) s = .next { s with events := s.events ++ [.err .lengthOverflow] }) ∧
    (Instr.atCommand cmd params).opcode = some 0x3

/-- R136: TRANSMIT_DATA: type 0x10, the radius byte before the options byte, each 0x00 when omitted. -/
def Obligations.TransmitDataBuildsItsFrame : Prop :=
  ∀ (dest64 dest16 data : List Byte) (options radius : Option Byte) (s : State),
    let content := padLeft 8 dest64 ++ padLeft 2 dest16 ++ [radius.getD 0x00, options.getD 0x00] ++ data
    (dest64.length ≤ 8 → dest16.length ≤ 2 →
      exec (.transmitData dest64 dest16 data options radius) s = exec (.buildFrame 0x10 content) s) ∧
    (dest64.length ≤ 8 → dest16.length ≤ 2 → data.length ≤ 65521 →
      exec (.transmitData dest64 dest16 data options radius) s =
        .next { s with frameId := nextFid s.frameId, events := s.events ++ [.txFrame (frameBytes s.cfg 0x10 s.frameId content)] }) ∧
    (8 < dest64.length ∨ 2 < dest16.length →
      exec (.transmitData dest64 dest16 data options radius) s =
        .next { s with events := s.events ++ [.err .addrTooLong] }) ∧
    (dest64.length ≤ 8 → dest16.length ≤ 2 → 65521 < data.length →
      exec (.transmitData dest64 dest16 data options radius) s =
        .next { s with events := s.events ++ [.err .lengthOverflow] }) ∧
    (Instr.transmitData dest64 dest16 data options radius).opcode = some 0x4

/-- R137: REMOTE_AT: type 0x17, the options byte 0x02 when omitted. -/
def Obligations.RemoteAtBuildsItsFrame : Prop :=
  ∀ (dest64 dest16 : List Byte) (cmd : CmdName) (params : Option (List Byte)) (options : Option Byte) (s : State),
    let content := padLeft 8 dest64 ++ padLeft 2 dest16 ++ [options.getD 0x02] ++ [cmd.c0, cmd.c1] ++ params.getD []
    (dest64.length ≤ 8 → dest16.length ≤ 2 →
      exec (.remoteAt dest64 dest16 cmd params options) s = exec (.buildFrame 0x17 content) s) ∧
    (dest64.length ≤ 8 → dest16.length ≤ 2 → (params.getD []).length ≤ 65520 →
      exec (.remoteAt dest64 dest16 cmd params options) s =
        .next { s with frameId := nextFid s.frameId, events := s.events ++ [.txFrame (frameBytes s.cfg 0x17 s.frameId content)] }) ∧
    (8 < dest64.length ∨ 2 < dest16.length →
      exec (.remoteAt dest64 dest16 cmd params options) s =
        .next { s with events := s.events ++ [.err .addrTooLong] }) ∧
    (dest64.length ≤ 8 → dest16.length ≤ 2 → 65520 < (params.getD []).length →
      exec (.remoteAt dest64 dest16 cmd params options) s =
        .next { s with events := s.events ++ [.err .lengthOverflow] }) ∧
    (Instr.remoteAt dest64 dest16 cmd params options).opcode = some 0x5

/-- R138: CREATE_SOURCE_ROUTE: type 0x21, the reserved byte 0x00, the hop count, and the hops in route order, two bytes
each, flattened; its errors; and it never overflows the length field. -/
def Obligations.CreateSourceRouteBuildsItsFrame : Prop :=
  ∀ (dest64 dest16 : List Byte) (route : List (List Byte)) (s : State),
    let r := exec (.createSourceRoute dest64 dest16 route) s
    let err (e : EncError) : Result := .next { s with events := s.events ++ [.err e] }
    (dest64.length ≤ 8 → dest16.length ≤ 2 → route.length ≤ 255 → (∀ h ∈ route, h.length ≤ 2) →
      ∃ n : Byte, n.toNat = route.length ∧
        (let content := padLeft 8 dest64 ++ padLeft 2 dest16 ++ [0x00, n] ++ (route.map (padLeft 2)).flatten
         content.length = 12 + 2 * route.length ∧ content.length ≤ 522 ∧ r = exec (.buildFrame 0x21 content) s ∧
         r = .next { s with
           frameId := nextFid s.frameId
           events := s.events ++ [.txFrame (frameBytes s.cfg 0x21 s.frameId content)] })) ∧
    (8 < dest64.length ∨ 2 < dest16.length → r = err .addrTooLong) ∧
    (dest64.length ≤ 8 → dest16.length ≤ 2 → 255 < route.length → r = err .routeTooLong) ∧
    (dest64.length ≤ 8 → dest16.length ≤ 2 → route.length ≤ 255 → (∃ h ∈ route, 2 < h.length) → r = err .addrTooLong) ∧
    r ≠ err .lengthOverflow ∧ (Instr.createSourceRoute dest64 dest16 route).opcode = some 0x6

/-- R172 (and R139): an encoder operation that raises an error emits that one ERR and writes nothing; every encoder operation
either does that or sends one frame and advances `frame_id`. -/
def Obligations.EncoderFailureIsAtomic : Prop :=
  ∀ (i : Instr) (s : State), i.unit = .encoder →
    ∃ t, exec i s = .next t ∧
      ((∃ e, t = { s with events := s.events ++ [.err e] }) ∨
        ∃ bs, t = { s with frameId := nextFid s.frameId, events := s.events ++ [.txFrame bs] }) ∧
      (∀ e, Event.err e ∈ t.events.drop s.events.length → t = { s with events := s.events ++ [.err e] })

/-- R141: an encoder operation that does not report an error emits exactly one TX_FRAME, and it is whole: 0x7E, the
length field `L`, `L` bytes and the checksum, `L + 4` bytes in all. -/
def Obligations.SentFrameIsWhole : Prop :=
  ∀ (i : Instr) (s t : State), i.unit = .encoder → exec i s = .next t →
    (∃ e, t.events = s.events ++ [.err e]) ∨
    ∃ (h l c : Byte) (d : List Byte), t.events = s.events ++ [.txFrame ([0x7E, h, l] ++ d ++ [c])] ∧
      d.length = h.toNat * 256 + l.toNat ∧ ([0x7E, h, l] ++ d ++ [c]).length = d.length + 4 ∧
      (sumBytes d + c.toNat) % 256 = 0xFF

/-- R142, R69: the frame sent carries `frame_id` as frame data byte 1, and no operation makes `frame_id` 0. -/
def Obligations.SentFrameIdIsNeverZero : Prop :=
  ∀ (i : Instr) (s t : State), s.frameId ≠ 0 → exec i s = .next t →
    t.frameId ≠ 0 ∧ ∀ bs, i.unit = .encoder → t.events = s.events ++ [.txFrame bs] →
      bs[4]? = some s.frameId ∧ bs[4]? ≠ some 0

/-- R143 (the spec marks it derived): the bytes BUILD_FRAME sends, fed to a decoder in IDLE in any chunks, are emitted as one frame with the frame's
data, and the decoder ends in IDLE with the framing registers 0. -/
def Obligations.RoundTripThroughTheDecoder : Prop :=
  ∀ (ty : Byte) (content : List Byte) (s d : State) (chunks : List (List Byte)), d.Inv → d.phase = .idle →
    content.length + 2 ≤ d.cfg.nBuf →
    ∃ t bs, exec (.buildFrame ty content) s = .next t ∧ t.events = s.events ++ [.txFrame bs] ∧
      (chunks.flatten = bs → ∃ e, deliver chunks d = .next e ∧
        e = { d with dbuf := e.dbuf, events := d.events ++ [.frameOut ([ty, s.frameId] ++ content)] })

/-- R174: the error reported is the first met in the order dest64, dest16, hop count, hops, content length. -/
def Obligations.EncoderErrorOrder : Prop :=
  ∀ s : State,
    let err (e : EncError) : Result := .next { s with events := s.events ++ [.err e] }
    let sends (r : Result) : Prop := ∃ t bs, r = .next t ∧ t.events = s.events ++ [.txFrame bs]
    (∀ dest64 dest16 data options radius, let r := exec (.transmitData dest64 dest16 data options radius) s
      if 8 < dest64.length then r = err .addrTooLong
      else if 2 < dest16.length then r = err .addrTooLong
      else if 65521 < data.length then r = err .lengthOverflow
      else sends r) ∧
    (∀ dest64 dest16 cmd params options, let r := exec (.remoteAt dest64 dest16 cmd params options) s
      if 8 < dest64.length then r = err .addrTooLong
      else if 2 < dest16.length then r = err .addrTooLong
      else if 65520 < (params.getD []).length then r = err .lengthOverflow
      else sends r) ∧
    ∀ dest64 dest16 route, let r := exec (.createSourceRoute dest64 dest16 route) s
      if 8 < dest64.length then r = err .addrTooLong
      else if 2 < dest16.length then r = err .addrTooLong
      else if 255 < route.length then r = err .routeTooLong
      else if ∃ h ∈ route, 2 < h.length then r = err .addrTooLong
      else sends r

/-! ### Control -/

/-- R160: RESET writes the initial values, leaves the buffer alone and emits nothing; it is idempotent. -/
def Obligations.ResetRestoresInitialValues : Prop :=
  ∀ s : State,
    let t : State := { s with
      phase := .idle, lcount := 0, dlen := 0, dcount := 0, dsum := 0, dropCount := 0, frameId := 0x01 }
    exec .reset s = .next t ∧ exec .reset t = .next t ∧ Instr.reset.opcode = some 0xF

/-- R161: STATUS emits one record of the readable registers and writes nothing; a second one gives an equal record. -/
def Obligations.StatusReportsAndChangesNothing : Prop :=
  ∀ s : State,
    let r : StatusRecord := {
      phaseCode := match s.phase with | .idle => 0 | .lengthPending => 1 | .payloadPending => 2
      dlen := s.dlen, dcount := s.dcount, dropCount := s.dropCount, frameId := s.frameId }
    Instr.status.opcode = some 0xE ∧
    exec .status s = .next { s with events := s.events ++ [.statusOut r] } ∧
    runOps [.status, .status] s = .next { s with events := s.events ++ [.statusOut r, .statusOut r] }
end

