-- ==== Sys2Proof/Laws/Decode.lean ====
section
/-! SUPPORT. The serial form of operands: what each decoder of an operand gives on the encoding of one, and on any
stream it accepts. -/

namespace Sys2Proof

theorem decodeSeq_nil (rest : List Byte) : decodeSeq (0x00 :: rest) = .ok ([], rest) := by
  cases rest <;> simp [decodeSeq]

theorem decodeSeq_encodeSeq (l rest : List Byte) : decodeSeq (encodeSeq l ++ rest) = .ok (l, rest) := by
  induction l with
  | nil => exact decodeSeq_nil rest
  | cons b l ih => simp [encodeSeq, decodeSeq, ih]

theorem decodeByte_cons (b : Byte) (rest : List Byte) : decodeByte (b :: rest) = .ok (b, rest) := rfl

theorem decodeCmd_cons (c0 c1 : Byte) (rest : List Byte) :
    decodeCmd (c0 :: c1 :: rest) = .ok (⟨c0, c1⟩, rest) := rfl

theorem decodeOptByte_encodeOptByte (o : Option Byte) (rest : List Byte) :
    decodeOptByte (encodeOptByte o ++ rest) = .ok (o, rest) := by
  cases o <;> rfl

theorem decodeOptSeq_encodeOptSeq (o : Option (List Byte)) (rest : List Byte) :
    decodeOptSeq (encodeOptSeq o ++ rest) = .ok (o, rest) := by
  cases o <;> simp [encodeOptSeq, decodeOptSeq, decodeSeq_encodeSeq, decodeMarker, bind, Except.bind, pure, Except.pure]

theorem length_encodeSeqs (hs : List (List Byte)) : hs.length < (encodeSeqs hs).length := by
  induction hs with
  | nil => simp [encodeSeqs]
  | cons h hs ih => simp only [encodeSeqs, List.length_cons, List.length_append]; omega

theorem decodeSeqs_encodeSeqs (hs : List (List Byte)) (rest : List Byte) (fuel : Nat) (h : hs.length < fuel) :
    decodeSeqs fuel (encodeSeqs hs ++ rest) = .ok (hs, rest) := by
  induction hs generalizing fuel with
  | nil => cases fuel <;> simp_all [encodeSeqs, decodeSeqs, decodeMarker, bind, Except.bind, pure, Except.pure]
  | cons l hs ih =>
    cases fuel with
    | zero => omega
    | succ fuel =>
      simp [encodeSeqs, decodeSeqs, decodeSeq_encodeSeq, decodeMarker, bind, Except.bind, pure, Except.pure,
        ih fuel (by simpa using h)]

/-- A stream is long enough to be its own fuel. -/
theorem decodeSeqs_self (hs : List (List Byte)) (rest : List Byte) :
    decodeSeqs (encodeSeqs hs ++ rest).length (encodeSeqs hs ++ rest) = .ok (hs, rest) :=
  decodeSeqs_encodeSeqs hs rest _ (by have := length_encodeSeqs hs; simp; omega)

/-! What each operand decoder accepts is the encoding of its answer. -/

theorem decodeSeq_sound {bs l rest : List Byte} (h : decodeSeq bs = .ok (l, rest)) : encodeSeq l ++ rest = bs := by
  induction bs using decodeSeq.induct generalizing l rest with
  | _ => simp_all [decodeSeq] <;> grind [encodeSeq]

theorem decodeMarker_sound {bs rest : List Byte} {given : Bool} (h : decodeMarker bs = .ok (given, rest)) :
    (if given then 0x01 else 0x00) :: rest = bs := by
  cases bs <;> grind [decodeMarker]

theorem decodeByte_sound {bs rest : List Byte} {b : Byte} (h : decodeByte bs = .ok (b, rest)) : b :: rest = bs := by
  cases bs <;> grind [decodeByte]

/-- A sequence of decoders succeeds only where each does. -/
theorem decode_bind_ok {α β : Type} {x : Except DecodeError α} {f : α → Except DecodeError β} {y : β}
    (h : (x >>= f) = .ok y) : ∃ a, x = .ok a ∧ f a = .ok y := by
  cases x with
  | error e => cases h
  | ok a => exact ⟨a, rfl, h⟩

theorem decodeOptByte_sound {bs rest : List Byte} {o : Option Byte} (h : decodeOptByte bs = .ok (o, rest)) :
    encodeOptByte o ++ rest = bs := by
  obtain ⟨⟨g, r⟩, hm, h⟩ := decode_bind_ok h
  have := decodeMarker_sound hm
  cases g with
  | false => cases h; simpa [encodeOptByte] using this
  | true =>
    obtain ⟨⟨b, r'⟩, hb, h⟩ := decode_bind_ok h
    have := decodeByte_sound hb
    cases h; simp_all [encodeOptByte]

theorem decodeOptSeq_sound {bs rest : List Byte} {o : Option (List Byte)} (h : decodeOptSeq bs = .ok (o, rest)) :
    encodeOptSeq o ++ rest = bs := by
  obtain ⟨⟨g, r⟩, hm, h⟩ := decode_bind_ok h
  have := decodeMarker_sound hm
  cases g with
  | false => cases h; simpa [encodeOptSeq] using this
  | true =>
    obtain ⟨⟨b, r'⟩, hb, h⟩ := decode_bind_ok h
    have := decodeSeq_sound hb
    cases h; simp_all [encodeOptSeq]

theorem decodeCmd_sound {bs rest : List Byte} {c : CmdName} (h : decodeCmd bs = .ok (c, rest)) :
    c.c0 :: c.c1 :: rest = bs := by
  obtain ⟨⟨g, r⟩, hm, h⟩ := decode_bind_ok h
  obtain ⟨⟨b, r'⟩, hb, h⟩ := decode_bind_ok h
  have := decodeByte_sound hb
  have := decodeByte_sound hm
  cases h; simp_all

theorem decodeSeqs_sound {fuel : Nat} {bs rest : List Byte} {hs : List (List Byte)} (h : decodeSeqs fuel bs = .ok (hs, rest)) :
    encodeSeqs hs ++ rest = bs := by
  induction fuel generalizing bs hs rest with
  | zero => cases h
  | succ n ih =>
    obtain ⟨⟨g, r⟩, hm, h⟩ := decode_bind_ok h
    have hm := decodeMarker_sound hm
    cases g with
    | false => cases h; simpa [encodeSeqs] using hm
    | true =>
      obtain ⟨⟨b, r'⟩, hb, h⟩ := decode_bind_ok h
      obtain ⟨⟨b', r''⟩, hb', h⟩ := decode_bind_ok h
      have := decodeSeq_sound hb
      have := ih hb'
      cases h; simp_all [encodeSeqs]

end Sys2Proof
end

