-- ==== Sys2Proof/Laws/Memory.lean ====
section
/-! SUPPORT. The frame buffer: a read after a write, and that every memory operation keeps the canonical form. -/

namespace Sys2Proof.Machine

@[simp] theorem Memory.read_nil (i : Nat) : Memory.read [] i = none := rfl

theorem Memory.read_cons (c : Host.Cell) (m : Memory) (i : Nat) :
    Memory.read (c :: m) i = if c.1 = i then some c.2 else Memory.read m i := rfl

theorem Memory.wf_nil : Memory.wf [] = true := rfl

/-- The memory after reset is canonical. -/
theorem State.reset_dbuf_wf : State.reset.dbuf.wf = true := rfl

theorem Memory.wf_iff (m : Memory) : m.wf = true ↔ m.Pairwise fun c d => c.1 < d.1 := by
  simp [Memory.wf]

theorem Memory.wf_cons (c : Host.Cell) (m : Memory) :
    Memory.wf (c :: m) = true ↔ (∀ d ∈ m, c.1 < d.1) ∧ m.wf = true := by
  simp [Memory.wf_iff]

/-- A cell of the written memory is the written one or an old one. -/
theorem Memory.mem_write {m : Memory} {i : Nat} {b : Byte} {c : Host.Cell} (h : c ∈ m.write i b) :
    c = (i, b) ∨ c ∈ m := by
  induction m with
  | nil => simpa [Memory.write] using h
  | cons d m ih =>
    simp only [Memory.write] at h
    split at h
    · simpa using h
    · split at h
      · rcases List.mem_cons.1 h with h | h
        · exact .inl h
        · exact .inr (List.mem_cons_of_mem _ h)
      · rcases List.mem_cons.1 h with h | h
        · exact .inr (h ▸ List.mem_cons_self)
        · exact (ih h).imp id (List.mem_cons_of_mem _)

/-- Writing keeps the canonical form. -/
theorem Memory.wf_write {m : Memory} (i : Nat) (b : Byte) (h : m.wf = true) : (m.write i b).wf = true := by
  induction m with
  | nil => simp [Memory.write, Memory.wf]
  | cons c m ih =>
    have ⟨hc, hm⟩ := (Memory.wf_cons c m).1 h
    simp only [Memory.write]
    split
    · refine (Memory.wf_cons _ _).2 ⟨fun d hd => ?_, h⟩
      rcases List.mem_cons.1 hd with rfl | hd
      · assumption
      · exact Nat.lt_trans ‹_› (hc d hd)
    · split
      · next heq => exact (Memory.wf_cons _ _).2 ⟨fun d hd => heq ▸ hc d hd, hm⟩
      · refine (Memory.wf_cons _ _).2 ⟨fun d hd => ?_, ih hm⟩
        rcases Memory.mem_write hd with rfl | hd
        · exact Nat.lt_of_le_of_ne (Nat.not_lt.1 ‹_›) ‹_›
        · exact hc d hd

/-- A read after a write: the byte written there, the old byte elsewhere. -/
theorem Memory.read_write (m : Memory) (i : Nat) (b : Byte) (k : Nat) :
    (m.write i b).read k = if k = i then some b else m.read k := by
  induction m with
  | nil => simp [Memory.write, Memory.read_cons, eq_comm]
  | cons c m ih =>
    simp only [Memory.write]
    split
    · simp [Memory.read_cons, eq_comm]
    · split <;> simp only [Memory.read_cons, ih] <;> grind

/-- `MemWrite` keeps the canonical form. -/
theorem State.memWrite_wf {s t : State} {i : Nat} {b : Byte} (h : s.dbuf.wf = true) (hw : s.memWrite i b = .ok t) :
    t.dbuf.wf = true := by
  unfold State.memWrite at hw
  split at hw <;> cases hw
  exact Memory.wf_write i b h

end Sys2Proof.Machine
end

