-- ==== Sys2Proof/Laws/State.lean ====
section
/-! SUPPORT. What each update of the state does to each field: true by unfolding, so that no later proof unfolds a
record update. -/

namespace Sys2Proof.Machine

/-- The drop counter's successor does not depend on the configuration: `CNT_W` is fixed. -/
theorem satSucc_eq (cfg : Config) (n : BitVec cntWidth) :
    satSucc cfg n = BitVec.ofNat cntWidth (min (n.toNat + 1) 0xFFFFFFFF) := rfl

theorem satSucc_toNat (cfg : Config) (n : BitVec cntWidth) : (satSucc cfg n).toNat = min (n.toNat + 1) 0xFFFFFFFF := by
  rw [satSucc_eq, BitVec.toNat_ofNat]
  exact Nat.mod_eq_of_lt (Nat.lt_of_le_of_lt (Nat.min_le_right _ _) (by decide))

section
variable (s : State) (e : Event) (r : DropReason) (bs : List Byte)

@[simp] theorem State.emit_cfg : (s.emit e).cfg = s.cfg := rfl
@[simp] theorem State.emit_phase : (s.emit e).phase = s.phase := rfl
@[simp] theorem State.emit_lcount : (s.emit e).lcount = s.lcount := rfl
@[simp] theorem State.emit_dlen : (s.emit e).dlen = s.dlen := rfl
@[simp] theorem State.emit_dcount : (s.emit e).dcount = s.dcount := rfl
@[simp] theorem State.emit_dsum : (s.emit e).dsum = s.dsum := rfl
@[simp] theorem State.emit_dbuf : (s.emit e).dbuf = s.dbuf := rfl
@[simp] theorem State.emit_dropCount : (s.emit e).dropCount = s.dropCount := rfl
@[simp] theorem State.emit_frameId : (s.emit e).frameId = s.frameId := rfl
@[simp] theorem State.emit_opIn : (s.emit e).opIn = s.opIn := rfl
@[simp] theorem State.emit_events : (s.emit e).events = s.events ++ [e] := rfl

@[simp] theorem State.toIdle_cfg : s.toIdle.cfg = s.cfg := rfl
@[simp] theorem State.toIdle_phase : s.toIdle.phase = .idle := rfl
@[simp] theorem State.toIdle_lcount : s.toIdle.lcount = 0 := rfl
@[simp] theorem State.toIdle_dlen : s.toIdle.dlen = 0 := rfl
@[simp] theorem State.toIdle_dcount : s.toIdle.dcount = 0 := rfl
@[simp] theorem State.toIdle_dsum : s.toIdle.dsum = 0 := rfl
@[simp] theorem State.toIdle_dbuf : s.toIdle.dbuf = s.dbuf := rfl
@[simp] theorem State.toIdle_dropCount : s.toIdle.dropCount = s.dropCount := rfl
@[simp] theorem State.toIdle_frameId : s.toIdle.frameId = s.frameId := rfl
@[simp] theorem State.toIdle_opIn : s.toIdle.opIn = s.opIn := rfl
@[simp] theorem State.toIdle_events : s.toIdle.events = s.events := rfl

@[simp] theorem State.dropFrame_cfg : (s.dropFrame r).cfg = s.cfg := rfl
@[simp] theorem State.dropFrame_phase : (s.dropFrame r).phase = s.phase := rfl
@[simp] theorem State.dropFrame_lcount : (s.dropFrame r).lcount = s.lcount := rfl
@[simp] theorem State.dropFrame_dlen : (s.dropFrame r).dlen = s.dlen := rfl
@[simp] theorem State.dropFrame_dcount : (s.dropFrame r).dcount = s.dcount := rfl
@[simp] theorem State.dropFrame_dsum : (s.dropFrame r).dsum = s.dsum := rfl
@[simp] theorem State.dropFrame_dbuf : (s.dropFrame r).dbuf = s.dbuf := rfl
@[simp] theorem State.dropFrame_dropCount : (s.dropFrame r).dropCount = satSucc s.cfg s.dropCount := rfl
@[simp] theorem State.dropFrame_frameId : (s.dropFrame r).frameId = s.frameId := rfl
@[simp] theorem State.dropFrame_opIn : (s.dropFrame r).opIn = s.opIn := rfl
@[simp] theorem State.dropFrame_events : (s.dropFrame r).events = s.events ++ [.drop r] := rfl

@[simp] theorem State.sent_cfg : (s.sent bs).cfg = s.cfg := rfl
@[simp] theorem State.sent_phase : (s.sent bs).phase = s.phase := rfl
@[simp] theorem State.sent_lcount : (s.sent bs).lcount = s.lcount := rfl
@[simp] theorem State.sent_dlen : (s.sent bs).dlen = s.dlen := rfl
@[simp] theorem State.sent_dcount : (s.sent bs).dcount = s.dcount := rfl
@[simp] theorem State.sent_dsum : (s.sent bs).dsum = s.dsum := rfl
@[simp] theorem State.sent_dbuf : (s.sent bs).dbuf = s.dbuf := rfl
@[simp] theorem State.sent_dropCount : (s.sent bs).dropCount = s.dropCount := rfl
@[simp] theorem State.sent_frameId : (s.sent bs).frameId = nextFid s.frameId := rfl
@[simp] theorem State.sent_opIn : (s.sent bs).opIn = s.opIn := rfl
@[simp] theorem State.sent_events : (s.sent bs).events = s.events ++ [.txFrame bs] := rfl

@[simp] theorem State.emit_bufByte (i : Nat) : (s.emit e).bufByte i = s.bufByte i := rfl
@[simp] theorem State.toIdle_bufByte (i : Nat) : s.toIdle.bufByte i = s.bufByte i := rfl
@[simp] theorem State.dropFrame_bufByte (i : Nat) : (s.dropFrame r).bufByte i = s.bufByte i := rfl

end

end Sys2Proof.Machine
end

