-- ==== Sys2Proof/Laws/Ops.lean ====
section
/-! SUPPORT. What each shared operation can do, said once. -/

namespace Sys2Proof.Machine

/-! ### Bytes and sums -/

@[simp] theorem sumBytes_nil : sumBytes [] = 0 := rfl

@[simp] theorem sumBytes_cons (b : Byte) (l : List Byte) : sumBytes (b :: l) = b.toNat + sumBytes l := by
  simp [sumBytes]

@[simp] theorem sumBytes_append (l r : List Byte) : sumBytes (l ++ r) = sumBytes l + sumBytes r := by
  simp [sumBytes]

/-- The checksum predicate over natural numbers: no wrap is possible (40_decoder.md R108). -/
theorem csumOk_iff (dsum c : Byte) : csumOk dsum c = true ↔ dsum.toNat + c.toNat = 255 := by
  simp only [csumOk, beq_iff_eq, BitVec.toNat_add, BitVec.truncate_eq_setWidth, BitVec.toNat_setWidth]
  omega

theorem checksumOf_toNat (d : List Byte) : (checksumOf d).toNat = 255 - sumBytes d % 256 := by
  simp only [checksumOf, BitVec.toNat_ofNat]
  omega

theorem hi_toNat (x : U16) : (hi x).toNat = x.toNat / 256 := by
  simp only [hi, BitVec.extractLsb'_toNat, Nat.shiftRight_eq_div_pow]
  omega

theorem lo_toNat (x : U16) : (lo x).toNat = x.toNat % 256 := by
  simp [lo, BitVec.extractLsb'_toNat]

theorem nextFid_ne_zero (fid : Byte) : nextFid fid ≠ 0 := by
  unfold nextFid
  split
  · decide
  · next h => intro h0; exact h (by bv_omega)

/-! ### The frame buffer -/

theorem State.memRead_of_lt {s : State} {i : Nat} (h : i < s.cfg.nBuf) : s.memRead i = .ok (s.bufByte i) := by
  simp [State.memRead, h]

theorem State.memWrite_of_lt {s : State} {i : Nat} (b : Byte) (h : i < s.cfg.nBuf) :
    s.memWrite i b = .ok { s with dbuf := s.dbuf.write i b } := by
  simp [State.memWrite, h]

/-- Reads inside the buffer answer its bytes in index order. -/
theorem State.memReads_of_le {s : State} (i n : Nat) (h : i + n ≤ s.cfg.nBuf) :
    s.memReads i n = .ok ((List.range' i n).map s.bufByte) := by
  induction n generalizing i with
  | zero => rfl
  | succ n ih =>
    simp only [State.memReads, State.memRead_of_lt (show i < s.cfg.nBuf by omega), ih (i + 1) (by omega)]
    simp [List.range'_succ, bind, Except.bind, pure, Except.pure]

theorem State.memReads_zero {s : State} {n : Nat} (h : n ≤ s.cfg.nBuf) :
    s.memReads 0 n = .ok ((List.range n).map s.bufByte) := by
  rw [State.memReads_of_le 0 n (by omega), ← List.range_eq_range']

/-! ### The encoder -/

/-- The frame's bytes are the same under every configuration: the start delimiter is fixed (00_scope.md R10). -/
theorem frameBytes_congr (cfg cfg' : Config) (ty fid : Byte) (content : List Byte) :
    frameBytes cfg ty fid content = frameBytes cfg' ty fid content := rfl

theorem State.sendFrame_of_le {s : State} (ty : Byte) {content : List Byte} (h : content.length ≤ 65533) :
    s.sendFrame ty content = .next (s.sent (frameBytes s.cfg ty s.frameId content)) := by
  simp [State.sendFrame, Nat.not_lt.2 h]

theorem State.sendFrame_of_gt {s : State} (ty : Byte) {content : List Byte} (h : 65533 < content.length) :
    s.sendFrame ty content = s.raise .lengthOverflow := by
  simp [State.sendFrame, h]

/-- What an encoder operation can do, the same in every state: raise one error, or send one frame, whose content the
operands alone fix, and advance the identifier. -/
theorem exec_encoder_uniform {i : Instr} (hi : i.unit = .encoder) :
    (∃ e, ∀ s, exec i s = s.raise e) ∨
      ∃ ty content, content.length ≤ 65533 ∧ ∀ s : State, exec i s = .next (s.sent (frameBytes s.cfg ty s.frameId content)) := by
  have frame (ty content) : (∃ e, ∀ s : State, s.sendFrame ty content = s.raise e) ∨ ∃ ty' content', content'.length ≤ 65533 ∧
      ∀ s : State, s.sendFrame ty content = .next (s.sent (frameBytes s.cfg ty' s.frameId content')) := by
    rcases Nat.lt_or_ge 65533 content.length with h | h
    · exact .inl ⟨_, fun s => s.sendFrame_of_gt ty h⟩
    · exact .inr ⟨ty, content, h, fun s => s.sendFrame_of_le ty h⟩
  have built (ty content) : (∃ e, ∀ s : State, s.sendBuilt ty content = s.raise e) ∨ ∃ ty' content', content'.length ≤ 65533 ∧
      ∀ s : State, s.sendBuilt ty content = .next (s.sent (frameBytes s.cfg ty' s.frameId content')) := by
    cases content with
    | error e => exact .inl ⟨e, fun _ => rfl⟩
    | ok content => exact frame ty content
  cases i with
  | buildFrame ty content => exact frame ty content
  | atCommand cmd params => exact frame 0x08 (atContent cmd params)
  | transmitData d64 d16 data options radius => exact built 0x10 (transmitContent Config.default d64 d16 data options radius)
  | remoteAt d64 d16 cmd params options => exact built 0x17 (remoteContent Config.default d64 d16 cmd params options)
  | createSourceRoute d64 d16 route => exact built 0x21 (routeContent d64 d16 route)
  | _ => exact nomatch hi

/-- What an encoder operation can do in a state. -/
theorem exec_encoder_cases {i : Instr} (hi : i.unit = .encoder) (s : State) :
    (∃ e, exec i s = s.raise e) ∨
      ∃ ty content, content.length ≤ 65533 ∧ exec i s = .next (s.sent (frameBytes s.cfg ty s.frameId content)) :=
  (exec_encoder_uniform hi).imp (fun ⟨e, h⟩ => ⟨e, h s⟩) fun ⟨ty, content, hl, h⟩ => ⟨ty, content, hl, h s⟩

/-- ADDR_NORM answers exactly `size` bytes (41_encoder.md R130). -/
theorem addrNorm_of_le {a : List Byte} {size : Nat} (h : a.length ≤ size) :
    addrNorm a size = .ok (List.replicate (size - a.length) 0x00 ++ a) := by
  simp [addrNorm, Nat.not_lt.2 h]

theorem addrNorm_of_gt {a : List Byte} {size : Nat} (h : size < a.length) : addrNorm a size = .error .addrTooLong := by
  simp [addrNorm, h]

/-! ### The decoder -/

theorem State.ifSelected_next {s : State} {b : Byte} {i : Instr} {m : String} {r : Result} {t : State} :
    s.ifSelected b i m r = .next t ↔ s.select b = i ∧ r = .next t := by
  unfold State.ifSelected
  split <;> simp_all

theorem State.ifSelected_of_eq {s : State} {b : Byte} {i : Instr} (m : String) (r : Result) (h : s.select b = i) :
    s.ifSelected b i m r = r := by
  simp [State.ifSelected, h]

/-- When a completed frame is kept, it fits the buffer. -/
theorem State.dropReason_none {s : State} {c : Byte} (h : s.dropReason c = none) :
    csumOk s.dsum c = true ∧ ¬(s.dlen = 0 ∧ s.cfg.pEmpty = .drop) ∧ s.dlen.toNat ≤ s.cfg.nBuf := by
  unfold State.dropReason at h
  split at h
  · cases h
  · split at h
    · cases h
    · split at h
      · cases h
      · exact ⟨by simpa using ‹¬csumOk _ _ = false›, ‹_›, by omega⟩

/-- DATA where it is selected. -/
theorem execData_of_select {s : State} {b : Byte} (h : s.select b = .data b) :
    execData b s = .next { s with
      dbuf := if s.dcount.toNat < s.cfg.nBuf then s.dbuf.write s.dcount.toNat b else s.dbuf
      dsum := s.dsum + b
      dcount := s.dcount + 1 } := by
  rw [execData, State.ifSelected_of_eq _ _ h]
  by_cases hlt : s.dcount.toNat < s.cfg.nBuf <;> simp [hlt, State.memWrite]

/-- CHECKSUM where it is selected. -/
theorem execChecksum_of_select {s : State} {c : Byte} (h : s.select c = .checksum c) :
    execChecksum c s = .next (match s.dropReason c with
      | some r => (s.dropFrame r).toIdle
      | none => (s.emit (.frameOut ((List.range s.dlen.toNat).map s.bufByte))).toIdle) := by
  rw [execChecksum, State.ifSelected_of_eq _ _ h]
  cases hr : s.dropReason c with
  | some r => rfl
  | none => simp [State.memReads_zero (State.dropReason_none hr).2.2]

/-- In IDLE, the start delimiter selects SYNC and any other byte DISCARD (30_encoding.md R73). -/
theorem State.select_idle_sync {s : State} {b : Byte} (hp : s.phase = .idle) (hb : b = 0x7E) : s.select b = .sync b := by
  simp only [State.select, selectAction, hp]
  exact if_pos hb

theorem State.select_idle_other {s : State} {b : Byte} (hp : s.phase = .idle) (hb : b ≠ 0x7E) :
    s.select b = .discard b := by
  simp only [State.select, selectAction, hp]
  exact if_neg hb

/-- What RX_BYTE can do: in each phase, the action the table of R73 selects. -/
theorem execRxByte_cases (b : Byte) (s : State) :
    (s.phase = .idle ∧ b = 0x7E ∧ execRxByte b s = .next { s with phase := .lengthPending, lcount := 0 }) ∨
    (s.phase = .idle ∧ b ≠ 0x7E ∧ execRxByte b s = .next s) ∨
    (s.phase = .lengthPending ∧ s.lcount = 0 ∧
      execRxByte b s = .next { s with dlen := b.zeroExtend 16 * 256, lcount := 1 }) ∨
    (s.phase = .lengthPending ∧ s.lcount ≠ 0 ∧ execRxByte b s =
      .next { s with dlen := s.dlen + b.zeroExtend 16, lcount := 0, dcount := 0, dsum := 0, phase := .payloadPending }) ∨
    (s.phase = .payloadPending ∧ s.dcount.toNat < s.dlen.toNat ∧ execRxByte b s =
      .next { s with
        dbuf := if s.dcount.toNat < s.cfg.nBuf then s.dbuf.write s.dcount.toNat b else s.dbuf
        dsum := s.dsum + b
        dcount := s.dcount + 1 }) ∨
    (s.phase = .payloadPending ∧ s.dlen.toNat ≤ s.dcount.toNat ∧ execRxByte b s = .next (match s.dropReason b with
      | some r => (s.dropFrame r).toIdle
      | none => (s.emit (.frameOut ((List.range s.dlen.toNat).map s.bufByte))).toIdle)) := by
  obtain hp | hp | hp : s.phase = .idle ∨ s.phase = .lengthPending ∨ s.phase = .payloadPending := by
    cases s.phase <;> simp
  · by_cases hb : b = 0x7E
    · refine .inl ⟨hp, hb, ?_⟩
      rw [execRxByte, if_pos ⟨hp, hb⟩]
      exact State.ifSelected_of_eq _ _ (State.select_idle_sync hp hb)
    · refine .inr (.inl ⟨hp, hb, ?_⟩)
      rw [execRxByte, if_neg fun h => hb h.2, if_pos hp]
      exact State.ifSelected_of_eq _ _ (State.select_idle_other hp hb)
  · by_cases hl : s.lcount = 0
    · refine .inr (.inr (.inl ⟨hp, hl, ?_⟩))
      simp only [execRxByte, hp, hl, reduceCtorEq, false_and, and_self, if_false, if_true, execLenHi]
      exact State.ifSelected_of_eq _ _ (by simp [State.select, selectAction, hp, hl])
    · refine .inr (.inr (.inr (.inl ⟨hp, hl, ?_⟩)))
      simp only [execRxByte, hp, hl, reduceCtorEq, false_and, and_false, if_false, if_true, execLenLo]
      exact State.ifSelected_of_eq _ _ (by simp [State.select, selectAction, hp]; exact hl)
  · by_cases hd : s.dcount.toNat < s.dlen.toNat
    · refine .inr (.inr (.inr (.inr (.inl ⟨hp, hd, ?_⟩))))
      rw [execRxByte, if_neg (by simp [hp]), if_neg (by simp [hp]), if_neg (by simp [hp]), if_neg (by simp [hp]), if_pos hd]
      exact execData_of_select (s := s) (b := b) (by simp [State.select, selectAction, hp, hd])
    · refine .inr (.inr (.inr (.inr (.inr ⟨hp, Nat.not_lt.1 hd, ?_⟩))))
      rw [execRxByte, if_neg (by simp [hp]), if_neg (by simp [hp]), if_neg (by simp [hp]), if_neg (by simp [hp]), if_neg hd]
      exact execChecksum_of_select (s := s) (c := b) (by simp [State.select, selectAction, hp, hd])

/-- An action that is selected does what RX_BYTE does with its byte. -/
theorem execRxByte_of_select {b : Byte} {s : State} {i : Instr} (h : s.select b = i) : execRxByte b s = exec i s := by
  subst h
  unfold execRxByte State.select selectAction
  cases hp : s.phase with
  | idle => by_cases hb : b = s.cfg.sync.value <;> simp only [hb, and_true, and_false, if_true, if_false, exec]
  | lengthPending => by_cases hl : s.lcount = 0 <;> simp only [hl, reduceCtorEq, false_and, and_false, and_self, if_false, if_true, exec]
  | payloadPending => by_cases hd : s.dcount.toNat < s.dlen.toNat <;> simp [hd, exec]

/-- A decoder action that answers a next state was selected. -/
theorem exec_action_next {i : Instr} (hi : i.isHostOp = false) {s t : State} (h : exec i s = .next t) :
    ∃ b, encode i = [b] ∧ s.select b = i := by
  cases i <;> first
    | (cases hi; done)
    | exact ⟨_, rfl, (State.ifSelected_next.1 h).1⟩

/-- A decoder operation that answers a next state does what RX_BYTE does with some byte. -/
theorem exec_decoder_next {i : Instr} (hi : i.unit = .decoder) {s t : State} (h : exec i s = .next t) :
    ∃ b, (i = .rxByte b ∨ s.select b = i) ∧ execRxByte b s = .next t := by
  by_cases hh : i.isHostOp = true
  · cases i <;> first | (cases hi; done) | (cases hh; done) | exact ⟨_, .inl rfl, h⟩
  · obtain ⟨b, -, hb⟩ := exec_action_next (by simpa using hh) h
    exact ⟨b, .inr hb, (execRxByte_of_select hb).trans h⟩

end Sys2Proof.Machine
end

