-- ==== Sys2Proof/Laws/PerInstr.lean ====
section
/-! SUPPORT. Per-instruction laws of the encoding, one lemma per constructor: a host operation's words begin with its
code (30_encoding.md R70), and a decoder action's are one byte (R73). -/

/-- The words of an instruction begin with its code, or are the one inbound byte. -/
def Sys2Proof.Laws.EncodeHead.Statement (i : Sys2Proof.Instr) : Prop :=
  match i.opcode with
  | some code => (Sys2Proof.encode i).head? = some (code.zeroExtend 8)
  | none => (Sys2Proof.encode i).length = 1

namespace Sys2Proof.Laws.EncodeHead

theorem rxByte (b : Byte) : Statement (.rxByte b) := rfl

theorem buildFrame (ty : Byte) (content : List Byte) : Statement (.buildFrame ty content) := rfl

theorem atCommand (cmd : CmdName) (params : Option (List Byte)) : Statement (.atCommand cmd params) := rfl

theorem transmitData (dest64 dest16 data : List Byte) (options radius : Option Byte) :
    Statement (.transmitData dest64 dest16 data options radius) := rfl

theorem remoteAt (dest64 dest16 : List Byte) (cmd : CmdName) (params : Option (List Byte)) (options : Option Byte) :
    Statement (.remoteAt dest64 dest16 cmd params options) := rfl

theorem createSourceRoute (dest64 dest16 : List Byte) (route : List (List Byte)) :
    Statement (.createSourceRoute dest64 dest16 route) := rfl

theorem status : Statement .status := rfl

theorem reset : Statement .reset := rfl

theorem sync (b : Byte) : Statement (.sync b) := rfl

theorem discard (b : Byte) : Statement (.discard b) := rfl

theorem lenHi (b : Byte) : Statement (.lenHi b) := rfl

theorem lenLo (b : Byte) : Statement (.lenLo b) := rfl

theorem data (b : Byte) : Statement (.data b) := rfl

theorem checksum (c : Byte) : Statement (.checksum c) := rfl

end Sys2Proof.Laws.EncodeHead
end

