-- ==== Sys2Proof/Laws/Step.lean ====
section
/-! SUPPORT. What a step and a run can do, said once. -/

namespace Sys2Proof.Machine

/-- A step that answers a next state: no operation was delivered, or the decoded one was done. -/
theorem step_next_cases {s t : State} (h : step s = .next t) :
    (s.opIn = [] ∧ t = s) ∨
      ∃ i rest, decode s.opIn = .ok (i, rest) ∧ exec i { s with opIn := rest } = .next t := by
  unfold step State.fetch at h
  by_cases h0 : s.opIn = []
  · simp only [h0, if_true] at h
    exact .inl ⟨h0, by cases h; rfl⟩
  · simp only [h0, if_false] at h
    cases hd : decode s.opIn with
    | error e => simp [hd] at h
    | ok p => exact .inr ⟨p.1, p.2, rfl, by simpa [hd] using h⟩

@[simp] theorem runOps_nil (s : State) : runOps [] s = .next s := rfl

theorem runOps_cons_next {i : Instr} {s t : State} (is : List Instr) (h : exec i s = .next t) :
    runOps (i :: is) s = runOps is t := by
  simp [runOps, h]

/-- A run of two parts is the second run from where the first ended. -/
theorem runOps_append (is js : List Instr) (s : State) :
    runOps (is ++ js) s = match runOps is s with
      | .next t => runOps js t
      | .fault f => .fault f
      | .refused r => .refused r := by
  induction is generalizing s with
  | nil => rfl
  | cons i is ih =>
    simp only [List.cons_append, runOps]
    cases exec i s with
    | next u => exact ih u
    | fault f => rfl
    | refused r => rfl

theorem runOps_append_next {is : List Instr} {s t : State} (js : List Instr) (h : runOps is s = .next t) :
    runOps (is ++ js) s = runOps js t := by
  rw [runOps_append, h]

/-- An empty chunk adds nothing to the stream (30_encoding.md R72). -/
@[simp] theorem State.offer_nil (s : State) : s.offer [] = s := by
  simp [State.offer, rxChunk, encodeAll]

/-- Two chunks added one after the other are the one chunk of both. -/
theorem State.offer_offer (s : State) (w v : List Byte) : (s.offer w).offer v = s.offer (w ++ v) := by
  simp [State.offer, rxChunk, encodeAll]

theorem rxChunk_append (w v : List Byte) : rxChunk (w ++ v) = rxChunk w ++ rxChunk v := by
  simp [rxChunk]

/-- A run that ends went through a state between any two parts of it. -/
theorem runOps_cons_inv {i : Instr} {is : List Instr} {s t : State} (h : runOps (i :: is) s = .next t) :
    ∃ u, exec i s = .next u ∧ runOps is u = .next t := by
  simp only [runOps] at h
  cases he : exec i s with
  | next u => exact ⟨u, rfl, by simpa [he] using h⟩
  | fault f => simp [he] at h
  | refused r => simp [he] at h

end Sys2Proof.Machine
end

