-- ==== Sys2Proof/Tests/Slice0.lean ====
section
/-! SUPPORT. Tests of one step each, whose expected results are the vectors of 95_test_vectors.md (named V-...) or are
written out from the rule named; and, for every statement with hypotheses, a witness that meets them. -/

namespace Sys2Proof.Tests

open Sys2Proof.Machine

/-! ### The states the tests start from -/

/-- `IDLE0`, with counters of its own. -/
def idle : State := { State.reset with dropCount := 4, frameId := 0x37 }

/-- `(LENGTH_PENDING, 0, 0, 0, 0)`. -/
def length0 : State := { idle with phase := .lengthPending }

/-- `(LENGTH_PENDING, 1, 0x0100, 0, 0)`. -/
def length1 : State := { idle with phase := .lengthPending, lcount := 1, dlen := 0x0100 }

/-- `(PAYLOAD_PENDING, 0, 2, 1, 0x8A)` with `dbuf[0] = 8A`. -/
def payload : State := { idle with phase := .payloadPending, dlen := 2, dcount := 1, dsum := 0x8A, dbuf := [(0, 0x8A)] }

/-- `(PAYLOAD_PENDING, 0, 2, 2, 0x90)` with `dbuf[0..2) = [8A 06]`. -/
def complete : State :=
  { idle with phase := .payloadPending, dlen := 2, dcount := 2, dsum := 0x90, dbuf := [(0, 0x8A), (1, 0x06)] }

/-- `(PAYLOAD_PENDING, 0, 0, 0, 0)`: the empty frame before its checksum byte. -/
def empty : State := { idle with phase := .payloadPending }

/-- `N_BUF = 4`, frame data 01 02 03 04 received of five. -/
def oversize : State :=
  { idle with
    cfg := { nBuf := 4, pEmpty := .drop }
    phase := .payloadPending, dlen := 5, dcount := 4, dsum := 0x0A
    dbuf := [(0, 0x01), (1, 0x02), (2, 0x03), (3, 0x04)] }

/-- `N_BUF = 4`, the five frame data bytes 01 02 03 04 05 received. -/
def oversizeComplete : State := { oversize with dcount := 5, dsum := 0x0F }

/-- `N_BUF = 4`, a frame of exactly four data bytes received. -/
def fits : State := { oversize with dlen := 4 }

/-- The state a result holds. -/
def nextOf : Result → Option State
  | .next s => some s
  | .fault _ => none
  | .refused _ => none

/-- The events a result adds to those of `s`. -/
def newEvents (s : State) (r : Result) : Option (List Event) := (nextOf r).map fun t => t.events.drop s.events.length

/-- A decoder state in the notation of 95_test_vectors.md. -/
def framing (r : Result) : Option (Phase × BitVec 1 × U16 × U16 × Byte) :=
  (nextOf r).map fun t => (t.phase, t.lcount, t.dlen, t.dcount, t.dsum)

def fidOf (r : Result) : Option Byte := (nextOf r).map State.frameId

def dropsOf (r : Result) : Option (BitVec 32) := (nextOf r).map State.dropCount

/-- The reset state with a frame identifier of the test's choice. -/
def withFid (fid : Byte) : State := { State.reset with frameId := fid }

/-- 00 13 A2 00 40 A6 29 9D, the 64-bit address of the vectors. -/
def addr64 : List Byte := [0x00, 0x13, 0xA2, 0x00, 0x40, 0xA6, 0x29, 0x9D]

/-! ### Well-formedness: each check refuses an ill-formed term (R73 rows 1 and 2) -/

theorem test_wf_sync_other_byte : (Instr.sync 0x00).wf = false := by decide

theorem test_wf_discard_delimiter : (Instr.discard 0x7E).wf = false := by decide

theorem test_wf_accepts : (Instr.sync 0x7E).wf = true ∧ (Instr.discard 0x7D).wf = true ∧
    (Instr.transmitData (List.replicate 9 0) [] [] none none).wf = true := by decide

/-! ### Decoding: a word of every constructor, written out from R70, R73 and logs 1 and 2 -/

theorem test_decode_rxByte : decode [0x01, 0x8A, 0xFF] = .ok (.rxByte 0x8A, [0xFF]) := by decide

theorem test_decode_buildFrame :
    decode [0x02, 0x08, 0x01, 0x43, 0x01, 0x48, 0x00] = .ok (.buildFrame 0x08 [0x43, 0x48], []) := by decide

theorem test_decode_atCommand :
    decode [0x03, 0x4E, 0x4A, 0x01, 0x01, 0xFF, 0x00] = .ok (.atCommand ⟨0x4E, 0x4A⟩ (some [0xFF]), []) := by decide

/-- The options byte stands before the radius byte, in the order R70 lists the operands. -/
theorem test_decode_transmitData :
    decode [0x04, 0x01, 0x12, 0x01, 0x34, 0x00, 0x01, 0x07, 0x00, 0x01, 0x7E, 0x00, 0x01, 0x0A, 0x01, 0x05] =
      .ok (.transmitData [0x12, 0x34] [0x07] [0x7E] (some 0x0A) (some 0x05), []) := by decide

theorem test_decode_remoteAt :
    decode [0x05, 0x00, 0x01, 0xFE, 0x00, 0x44, 0x30, 0x01, 0x01, 0x05, 0x00, 0x00] =
      .ok (.remoteAt [] [0xFE] ⟨0x44, 0x30⟩ (some [0x05]) none, []) := by decide

theorem test_decode_createSourceRoute :
    decode [0x06, 0x00, 0x00, 0x01, 0x01, 0xAA, 0x01, 0xBB, 0x00, 0x01, 0x01, 0xCC, 0x00, 0x00] =
      .ok (.createSourceRoute [] [] [[0xAA, 0xBB], [0xCC]], []) := by decide

theorem test_decode_status : decode [0x0E] = .ok (.status, []) := by decide

theorem test_decode_reset : decode [0x0F] = .ok (.reset, []) := by decide

theorem test_select_sync : idle.select 0x7E = .sync 0x7E := by decide

theorem test_select_discard : idle.select 0x7D = .discard 0x7D := by decide

theorem test_select_lenHi : length0.select 0x7E = .lenHi 0x7E := by decide

theorem test_select_lenLo : length1.select 0x7E = .lenLo 0x7E := by decide

theorem test_select_data : payload.select 0x7E = .data 0x7E := by decide

theorem test_select_checksum : complete.select 0x7E = .checksum 0x7E := by decide

/-- V-R1, V-R2 (R74): every unassigned code. -/
theorem test_decode_unassigned :
    ([0x00, 0x07, 0x08, 0x09, 0x0A, 0x0B, 0x0C, 0x0D].map fun b : Byte => decode [b]) =
      ([0x0, 0x7, 0x8, 0x9, 0xA, 0xB, 0xC, 0xD].map fun c : BitVec 4 => .error (.unassigned c)) := by decide

/-- Logs 1 and 2: malformed streams, each by its own name. -/
theorem test_decode_malformed :
    decode [0x11, 0x00] = .error (.reservedBits 0x11) ∧ decode [] = .error .truncated ∧
      decode [0x01] = .error .truncated ∧ decode [0x02, 0x08, 0x01] = .error .truncated ∧
      decode [0x02, 0x08, 0x02, 0x00] = .error (.badMarker 0x02) ∧
      decode [0x03, 0x43, 0x48, 0x02] = .error (.badMarker 0x02) := by decide

/-! ### The table words (log 9) -/

theorem test_tableWord_hostOps :
    decodeTableWord 8 0x1 = some (.rxByte 0) ∧ decodeTableWord 8 0x2 = some (.buildFrame 0 []) ∧
      decodeTableWord 8 0x3 = some (.atCommand ⟨0, 0⟩ none) ∧
      decodeTableWord 8 0x4 = some (.transmitData [] [] [] none none) ∧
      decodeTableWord 8 0x5 = some (.remoteAt [] [] ⟨0, 0⟩ none none) ∧
      decodeTableWord 8 0x6 = some (.createSourceRoute [] [] []) ∧
      decodeTableWord 8 0xE = some .status ∧ decodeTableWord 8 0xF = some .reset := by decide

theorem test_tableWord_actions :
    decodeTableWord 8 0x7E = some (.sync 0x7E) ∧ decodeTableWord 8 0x00 = some (.discard 0x00) ∧
      decodeTableWord 8 0xFF = some (.discard 0xFF) := by decide

theorem test_fetch_sync : framing (step (State.reset.withFetchWord 8 0x7E)) = some (.lengthPending, 0, 0, 0, 0) := by
  decide

theorem test_fetch_atCommand : newEvents State.reset (step (State.reset.withFetchWord 8 0x3)) =
    some [.txFrame [0x7E, 0x00, 0x04, 0x08, 0x01, 0x00, 0x00, 0xF6]] := by decide

/-! ### RX_BYTE and the decoder's actions -/

/-- R101's example. -/
theorem test_rxByte_sync : framing (exec (.rxByte 0x7E) State.reset) = some (.lengthPending, 0, 0, 0, 0) := by decide

/-- R107's example, from the whole host operation. -/
theorem test_rxByte_frame : newEvents complete (exec (.rxByte 0x6F) complete) = some [.frameOut [0x8A, 0x06]] := by
  decide

theorem test_sync : framing (exec (.sync 0x7E) State.reset) = some (.lengthPending, 0, 0, 0, 0) := by decide

theorem test_sync_not_selected : exec (.sync 0x7E) length0 = .refused (.actionNotSelected "SYNC") := by rfl

/-- R102's example. -/
theorem test_discard : nextOf (exec (.discard 0x00) idle) = some idle := by decide

/-- R103's example, and the delimiter as a length byte (R105). -/
theorem test_lenHi : framing (exec (.lenHi 0x01) length0) = some (.lengthPending, 1, 0x0100, 0, 0) := by decide

theorem test_lenHi_delimiter : framing (exec (.lenHi 0x7E) length0) = some (.lengthPending, 1, 0x7E00, 0, 0) := by decide

/-- R104's example, with the high byte of `length1`. -/
theorem test_lenLo : framing (exec (.lenLo 0x02) length1) = some (.payloadPending, 0, 0x0102, 0, 0) := by decide

/-- V-D4: the largest length. -/
theorem test_lenLo_largest : framing (exec (.lenLo 0xFF) { length1 with dlen := 0xFF00 }) =
    some (.payloadPending, 0, 0xFFFF, 0, 0) := by decide

/-- L1-A step 5: 8A + 06 = 90. -/
theorem test_data : framing (exec (.data 0x06) payload) = some (.payloadPending, 0, 2, 2, 0x90) ∧
    (nextOf (exec (.data 0x06) payload)).map State.dbuf = some [(0, 0x8A), (1, 0x06)] := by decide

/-- V-D12's fifth byte: counted and summed, not stored. -/
theorem test_data_beyond_buffer : framing (exec (.data 0x05) oversize) = some (.payloadPending, 0, 5, 5, 0x0F) ∧
    (nextOf (exec (.data 0x05) oversize)).map State.dbuf = some oversize.dbuf := by decide

/-- L1-A' step 6 and V-D15: a bad checksum, and the saturated counter. -/
theorem test_checksum_drop : newEvents complete (exec (.checksum 0x76) complete) = some [.drop .checksum] ∧
    dropsOf (exec (.checksum 0x76) complete) = some 5 ∧
    framing (exec (.checksum 0x76) complete) = some (.idle, 0, 0, 0, 0) ∧
    dropsOf (exec (.checksum 0x76) { complete with dropCount := 0xFFFFFFFF }) = some 0xFFFFFFFF := by decide

/-- V-D7, V-D8, V-D12, V-D13 and V-D14: the last byte of each. -/
theorem test_checksum_corners : newEvents empty (exec (.checksum 0xFF) empty) = some [.drop .empty] ∧
    newEvents empty (exec (.checksum 0xFF) { empty with cfg := { nBuf := 65535, pEmpty := .emit } }) =
      some [.frameOut []] ∧
    newEvents oversize (exec (.checksum 0xF0) oversizeComplete) = some [.drop .oversize] ∧
    newEvents oversize (exec (.checksum 0xF1) oversizeComplete) = some [.drop .checksum] ∧
    newEvents fits (exec (.checksum 0xF5) fits) = some [.frameOut [0x01, 0x02, 0x03, 0x04]] := by decide

/-- The table of R108 in 95_test_vectors.md. -/
theorem test_csumOk : csumOk 0x90 0x6F = true ∧ csumOk 0x90 0x76 = false ∧ csumOk 0x00 0xFF = true ∧
    csumOk 0xFF 0x00 = true ∧ csumOk 0x80 0x7F = true ∧ csumOk 0x01 0xFF = false ∧ csumOk 0xFF 0xFF = false := by decide

/-! ### The encoder -/

/-- V-A1 to V-A6. -/
theorem test_addrNorm : (addrNorm [0x12, 0x34] 8).toOption = some [0, 0, 0, 0, 0, 0, 0x12, 0x34] ∧
    (addrNorm addr64 8).toOption = some addr64 ∧ (addrNorm [] 2).toOption = some [0, 0] ∧
    (addrNorm [0x07] 2).toOption = some [0x00, 0x07] ∧ (addrNorm [0x01, 0x02, 0x03] 2).toOption = none ∧
    (addrNorm (0x00 :: addr64) 8).toOption = none := by decide

/-- V-K1 to V-K3. -/
theorem test_checksumOf : checksumOf [0x8A, 0x06] = 0x6F ∧ checksumOf [0x00] = 0xFF ∧
    checksumOf [0xFF, 0xFF] = 0x01 := by decide

/-- V-E1. -/
theorem test_buildFrame : newEvents State.reset (exec (.buildFrame 0x08 [0x43, 0x48]) State.reset) =
    some [.txFrame [0x7E, 0x00, 0x04, 0x08, 0x01, 0x43, 0x48, 0x6B]] := by decide

/-- V-E3: 0x7E is not escaped. -/
theorem test_buildFrame_delimiter : newEvents State.reset (exec (.buildFrame 0x7E [0x7E]) State.reset) =
    some [.txFrame [0x7E, 0x00, 0x03, 0x7E, 0x01, 0x7E, 0x02]] := by decide

/-- V-E6: the identifier wraps from 255 to 1. -/
theorem test_atCommand_wraps : newEvents State.reset (exec (.atCommand ⟨0x43, 0x48⟩ none) (withFid 0xFF)) =
      some [.txFrame [0x7E, 0x00, 0x04, 0x08, 0xFF, 0x43, 0x48, 0x6D]] ∧
    fidOf (exec (.atCommand ⟨0x43, 0x48⟩ none) (withFid 0xFF)) = some 0x01 := by decide

/-- V-E8: parameters. -/
theorem test_atCommand_params : newEvents State.reset (exec (.atCommand ⟨0x4E, 0x4A⟩ (some [0xFF])) State.reset) =
    some [.txFrame [0x7E, 0x00, 0x05, 0x08, 0x01, 0x4E, 0x4A, 0xFF, 0x5F]] := by decide

/-- V-E12: the radius byte before the options byte. -/
theorem test_transmitData : newEvents State.reset
      (exec (.transmitData addr64 [0xFF, 0xFE] [0x48, 0x69] (some 0x01) (some 0x05)) State.reset) =
    some [.txFrame [0x7E, 0x00, 0x10, 0x10, 0x01, 0x00, 0x13, 0xA2, 0x00, 0x40, 0xA6, 0x29, 0x9D, 0xFF, 0xFE,
      0x05, 0x01, 0x48, 0x69, 0xD9]] := by decide

/-- V-E13: left zero-padding; V-E15: the identifier after a failure. -/
theorem test_transmitData_pads : newEvents State.reset
      (exec (.transmitData [0x12, 0x34] [0x07] [0x7E] none none) State.reset) =
      some [.txFrame [0x7E, 0x00, 0x0F, 0x10, 0x01, 0x00, 0x00, 0x00, 0x00, 0x00, 0x00, 0x12, 0x34, 0x00, 0x07,
        0x00, 0x00, 0x7E, 0x23]] ∧
    newEvents State.reset (exec (.transmitData (List.replicate 9 0x01) [] [] none none) State.reset) =
      some [.err .addrTooLong] ∧
    fidOf (exec (.transmitData (List.replicate 9 0x01) [] [] none none) State.reset) = some 0x01 := by decide

/-- V-E17: the options byte defaults to 02. -/
theorem test_remoteAt_default : newEvents State.reset
      (exec (.remoteAt addr64 [0xFF, 0xFE] ⟨0x44, 0x30⟩ (some [0x05]) none) State.reset) =
    some [.txFrame [0x7E, 0x00, 0x10, 0x17, 0x01, 0x00, 0x13, 0xA2, 0x00, 0x40, 0xA6, 0x29, 0x9D, 0xFF, 0xFE,
      0x02, 0x44, 0x30, 0x05, 0x0E]] := by decide

/-- V-E18: an explicit 00. -/
theorem test_remoteAt_options : newEvents State.reset
      (exec (.remoteAt addr64 [0xFF, 0xFE] ⟨0x44, 0x30⟩ (some [0x05]) (some 0x00)) State.reset) =
    some [.txFrame [0x7E, 0x00, 0x10, 0x17, 0x01, 0x00, 0x13, 0xA2, 0x00, 0x40, 0xA6, 0x29, 0x9D, 0xFF, 0xFE,
      0x00, 0x44, 0x30, 0x05, 0x10]] := by decide

/-- V-E20: flattened hops in the order given. -/
theorem test_createSourceRoute : newEvents State.reset
      (exec (.createSourceRoute addr64 [0x12, 0x34] [[0xAA, 0xBB], [0xCC, 0xDD]]) State.reset) =
    some [.txFrame [0x7E, 0x00, 0x12, 0x21, 0x01, 0x00, 0x13, 0xA2, 0x00, 0x40, 0xA6, 0x29, 0x9D, 0x12, 0x34,
      0x00, 0x02, 0xAA, 0xBB, 0xCC, 0xDD, 0x26]] := by decide

/-- V-E22 to V-E25: a padded hop, the hop count, a long hop, and the order of the errors. -/
theorem test_createSourceRoute_corners :
    newEvents State.reset (exec (.createSourceRoute addr64 [0x12, 0x34] [[0x05]]) State.reset) =
      some [.txFrame [0x7E, 0x00, 0x10, 0x21, 0x01, 0x00, 0x13, 0xA2, 0x00, 0x40, 0xA6, 0x29, 0x9D, 0x12, 0x34,
        0x00, 0x01, 0x00, 0x05, 0x30]] ∧
    newEvents State.reset (exec (.createSourceRoute addr64 [] (List.replicate 256 [0x01, 0x02])) State.reset) =
      some [.err .routeTooLong] ∧
    newEvents State.reset (exec (.createSourceRoute addr64 [] [[0x01, 0x02, 0x03]]) State.reset) =
      some [.err .addrTooLong] ∧
    newEvents State.reset
      (exec (.createSourceRoute (0x00 :: addr64) [] (List.replicate 256 [0x01, 0x02])) State.reset) =
      some [.err .addrTooLong] := by decide +kernel

/-! ### Control, and a step -/

/-- V-C1. -/
theorem test_status : newEvents State.reset (exec .status State.reset) =
    some [.statusOut { phaseCode := 0, dlen := 0, dcount := 0, dropCount := 0, frameId := 1 }] := by decide

/-- V-C2. -/
theorem test_status_in_frame : newEvents State.reset
      (exec .status { State.reset with phase := .payloadPending, dlen := 5, dcount := 1, dsum := 0x8A }) =
    some [.statusOut { phaseCode := 2, dlen := 5, dcount := 1, dropCount := 0, frameId := 1 }] := by decide

/-- V-C4. -/
theorem test_reset :
    let s := { idle with phase := .payloadPending, dlen := 5, dcount := 3, dsum := 0x12 }
    framing (exec .reset s) = some (.idle, 0, 0, 0, 0) ∧ dropsOf (exec .reset s) = some 0 ∧
      fidOf (exec .reset s) = some 0x01 ∧ newEvents s (exec .reset s) = some [] := by decide

theorem test_step_unassigned : step { State.reset with opIn := [0x07] } = .refused (.unassignedOpcode 0x7) := by rfl

theorem test_step_malformed : step { State.reset with opIn := [0x01] } = .refused (.malformedOperation .truncated) := by
  rfl

/-- A step leaves the rest of the stream for the next one. -/
theorem test_step_rest : (nextOf (step { State.reset with opIn := [0x01, 0x7E, 0x0E] })).map State.opIn = some [0x0E] := by
  decide

/-! ### Witnesses: for each statement with hypotheses, states and operands that meet them, at the values where its
clauses meet -/

theorem witness_inv_idle : idle.Inv where
  cfgLegal := by decide
  frameIdNonzero := by decide
  bufCanonical := by decide
  bufInRange := by decide
  whenIdle := by decide
  whenLength := by decide
  whenPayload := by decide
  payloadStored h := by cases h
  payloadSum h := by cases h

theorem witness_inv_length1 : length1.Inv where
  cfgLegal := by decide
  frameIdNonzero := by decide
  bufCanonical := by decide
  bufInRange := by decide
  whenIdle := by decide
  whenLength := by decide
  whenPayload := by decide
  payloadStored h := by cases h
  payloadSum h := by cases h

theorem witness_inv_empty : empty.Inv where
  cfgLegal := by decide
  frameIdNonzero := by decide
  bufCanonical := by decide
  bufInRange := by decide
  whenIdle := by decide
  whenLength := by decide
  whenPayload := by decide
  payloadStored _ i h := by exact absurd h (Nat.not_lt_zero i)
  payloadSum := by decide

/-- A frame of two data bytes is half received, and the host has delivered the next byte. -/
def stepping : State := { payload with opIn := [0x01, 0x06] }

theorem witness_inv_stepping : stepping.Inv where
  cfgLegal := by decide
  frameIdNonzero := by decide
  bufCanonical := by decide
  bufInRange := by decide
  whenIdle := by decide
  whenLength := by decide
  whenPayload := by decide
  payloadStored _ i h _ := by
    obtain rfl : i = 0 := Nat.lt_one_iff.1 h
    decide
  payloadSum := by decide

theorem witness_StepKeepsInvariant : stepping.Inv ∧ ∃ t, step stepping = .next t := ⟨witness_inv_stepping, _, rfl⟩

theorem witness_StepRunsDecodedOperation : decode stepping.opIn = .ok (.rxByte 0x06, []) := by decide

theorem witness_StepsRunTheOperationsInOrder :
    (∀ i ∈ [Instr.rxByte 0x06, .status], i.isHostOp = true) ∧
      ({ payload with opIn := [0x01, 0x06, 0x0E, 0x0F] } : State).opIn = encodeAll [.rxByte 0x06, .status] ++ [0x0F] := by
  decide

theorem witness_NoOperationNoChange : payload.opIn = [] := by decide

/-- The unassigned codes at the ends of their ranges; their neighbours are assigned. -/
theorem witness_UnassignedCodeRefused :
    ({ idle with opIn := [0x00] } : State).opIn = (0x0 : BitVec 4).zeroExtend 8 :: [] ∧
    ({ idle with opIn := [0x07, 0x0E] } : State).opIn = (0x7 : BitVec 4).zeroExtend 8 :: [0x0E] ∧
    ({ idle with opIn := [0x0D] } : State).opIn = (0xD : BitVec 4).zeroExtend 8 :: [] ∧
    (decode [0x06, 0x00, 0x00, 0x00]).toOption.isSome = true ∧ (decode [0x0E]).toOption.isSome = true := by
  decide

theorem witness_HostOperationsAlwaysComplete :
    (Instr.rxByte 0x7E).isHostOp = true ∧ (Instr.buildFrame 0x00 []).isHostOp = true ∧
    (Instr.atCommand ⟨0x43, 0x48⟩ none).isHostOp = true ∧ (Instr.transmitData [] [] [] none none).isHostOp = true ∧
    (Instr.remoteAt [] [] ⟨0x49, 0x44⟩ none none).isHostOp = true ∧
    (Instr.createSourceRoute [] [] []).isHostOp = true ∧ Instr.status.isHostOp = true ∧ Instr.reset.isHostOp = true := by
  decide

theorem witness_DecodeOfEncode :
    (Instr.transmitData addr64 [0xFF, 0xFE] [0x48, 0x69] (some 0x01) none).isHostOp = true := by decide

theorem witness_EncodeOfDecode : decode [0x03, 0x43, 0x48, 0x00, 0x0E] = .ok (.atCommand ⟨0x43, 0x48⟩ none, [0x0E]) := by
  decide

theorem witness_ActionTableSelectsOneRow :
    (idle.phase = .idle ∧ idle.dcount ≤ idle.dlen) ∧ (length0.phase = .lengthPending ∧ length0.lcount = 0) ∧
    (length1.phase = .lengthPending ∧ length1.lcount = 1) ∧
    (payload.phase = .payloadPending ∧ payload.dcount < payload.dlen ∧ payload.dcount ≤ payload.dlen) ∧
    (complete.phase = .payloadPending ∧ complete.dcount = complete.dlen ∧ complete.dcount ≤ complete.dlen) := by decide

theorem witness_ActionWordsRoundTrip : (Instr.sync 0x7E).isHostOp = false ∧ (Instr.sync 0x7E).wf = true ∧
    (Instr.discard 0x7D).isHostOp = false ∧ (Instr.discard 0x7D).wf = true ∧
    (Instr.checksum 0x7E).isHostOp = false ∧ (Instr.checksum 0x7E).wf = true := by decide

theorem witness_SyncStartsAFrame : idle.phase = .idle ∧ (0x7E : Byte) = 0x7E ∧ idle.Inv := ⟨rfl, rfl, witness_inv_idle⟩

theorem witness_DiscardChangesNothing : idle.phase = .idle ∧ (0x7D : Byte) ≠ 0x7E ∧ (0x7F : Byte) ≠ 0x7E := by decide

theorem witness_LenHiSetsTheHighByte : length0.phase = .lengthPending ∧ length0.lcount = 0 := by decide

/-- A length of 0 and a length of 0x0102; and the invariant. -/
theorem witness_LenLoOpensThePayload :
    length1.phase = .lengthPending ∧ length1.lcount = 1 ∧ length1.Inv ∧
    (nextOf (exec (.lenLo 0x00) { length1 with dlen := 0 })).map State.dlen = some 0 ∧
    (nextOf (exec (.lenLo 0x02) length1)).map State.dlen = some 0x0102 ∧
    (List.replicate 0x0102 (0x7E : Byte)).length = (0x0102 : U16).toNat :=
  ⟨rfl, rfl, witness_inv_length1, by decide, by decide, List.length_replicate⟩

theorem witness_LengthFieldIsBigEndian : length0.phase = .lengthPending ∧ length0.lcount = 0 := by decide

theorem witness_NoRetriggerOutsideIdle : length0.phase ≠ .idle ∧ payload.phase ≠ .idle ∧ complete.phase ≠ .idle := by
  decide

/-- Below the buffer's end, at it, at the default size, and an oversize frame completed with a valid checksum. -/
theorem witness_DataStoresSumsAndCounts :
    (payload.phase = .payloadPending ∧ payload.dcount < payload.dlen ∧ payload.dcount.toNat < payload.cfg.nBuf ∧
      payload.cfg.nBuf = 65535) ∧
    (oversize.phase = .payloadPending ∧ oversize.dcount < oversize.dlen ∧ oversize.cfg.nBuf ≤ oversize.dcount.toNat ∧
      oversize.cfg.nBuf < oversize.dlen.toNat) ∧
    (oversizeComplete.cfg = oversize.cfg ∧ oversizeComplete.dlen = oversize.dlen ∧
      csumOk oversizeComplete.dsum 0xF0 = true ∧ (nextOf (exec (.checksum 0xF0) oversizeComplete)).isSome = true) := by
  decide

/-- A valid and a corrupted frame, an empty one, an oversize one, and one that just fits. -/
theorem witness_ChecksumCompletesTheFrame :
    (complete.phase = .payloadPending ∧ complete.dcount = complete.dlen ∧ csumOk complete.dsum 0x6F = true ∧
      csumOk complete.dsum 0x70 = false ∧ complete.cfg.nBuf = 65535) ∧
    (empty.phase = .payloadPending ∧ empty.dcount = empty.dlen ∧ empty.dlen = 0 ∧ csumOk empty.dsum 0xFF = true) ∧
    (oversizeComplete.dcount = oversizeComplete.dlen ∧ oversizeComplete.cfg.nBuf < oversizeComplete.dlen.toNat) ∧
    (fits.dcount = fits.dlen ∧ ¬fits.cfg.nBuf < fits.dlen.toNat) ∧ empty.Inv :=
  ⟨by decide, by decide, by decide, by decide, witness_inv_empty⟩

/-- A length field of 0x0002 with both frame data bytes, and one of 0 with none. -/
theorem witness_ChecksumPredicateForms :
    idle.phase = .idle ∧ [(0x8A : Byte), 0x06].length ≤ (0x00 : Byte).toNat * 256 + (0x02 : Byte).toNat ∧
      ([] : List Byte).length ≤ (0x00 : Byte).toNat * 256 + (0x00 : Byte).toNat := by decide

theorem witness_DropReasonOrder :
    (complete.phase = .payloadPending ∧ complete.dcount = complete.dlen ∧ complete.cfg.legal = true) ∧
    (∃ t, exec (.checksum 0x76) complete = .next t ∧ t.events = complete.events ++ [.drop .checksum]) ∧
    (∃ t, exec (.checksum 0xFF) empty = .next t ∧ t.events = empty.events ++ [.drop .empty]) ∧
    (∃ t, exec (.checksum 0xF0) oversizeComplete = .next t ∧ t.events = oversizeComplete.events ++ [.drop .oversize]) :=
  ⟨by decide, ⟨_, rfl, rfl⟩, ⟨_, rfl, rfl⟩, _, rfl, rfl⟩

theorem witness_ActionsDoneOnlyWhereSelected :
    (Instr.lenHi 0x7E).isHostOp = false ∧ encode (.lenHi 0x7E) = [0x7E] ∧ length0.select 0x7E = .lenHi 0x7E ∧
      idle.select 0x7E ≠ .lenHi 0x7E := by decide

/-- V-D17's chunks and an empty one: after the first too few steps, after the empty one idle steps. -/
def chunks : List (List Byte × Nat) := [([0x7E, 0x00], 1), ([], 3), ([0x02, 0x8A, 0x06], 3), ([0x6F], 0)]

theorem witness_ChunkIndependence : idle.opIn = [] ∧ (chunks.map Prod.fst).flatten.length ≤ 6 ∧ idle.Inv ∧
    idle.cfg.nBuf = 65535 :=
  ⟨rfl, by decide, witness_inv_idle, rfl⟩

/-- V-D17: the source's decoder, from no partial frame. -/
theorem test_sourceRun : sourceRun .drop none [0x7E, 0x00, 0x02, 0x8A, 0x06, 0x6F] = (none, [.frameOut [0x8A, 0x06]]) := by
  decide

/-- The first two chunks: one step takes the first byte, and the second waits for the steps after it. -/
theorem test_deliverInSteps : framing (deliverInSteps [([0x7E, 0x00], 1)] idle) = some (.lengthPending, 0, 0, 0, 0) ∧
    framing (deliverInSteps [([0x7E, 0x00], 1), ([], 3)] idle) = some (.lengthPending, 1, 0, 0, 0) := by decide

theorem witness_ParametersOfTheCodec : (Config.legal { nBuf := 1 } = true) ∧ (Config.legal { nBuf := 65535 } = true) ∧
    Config.legal { nBuf := 0 } = false ∧ Config.legal { nBuf := 65536 } = false ∧
    ∃ t, exec (.rxByte 0x06) payload = .next t :=
  ⟨by decide, by decide, by decide, by decide, _, rfl⟩

/-- V-D1 and L1-A: the frame data 8A 06, after garbage; and a frame of one byte, the shortest. -/
theorem witness_ExactConsumption :
    idle.Inv ∧ idle.phase = .idle ∧ (∀ b ∈ [(0x00 : Byte), 0xFF], b ≠ 0x7E) ∧
    1 ≤ [(0x8A : Byte), 0x06].length ∧ [(0x8A : Byte), 0x06].length ≤ idle.cfg.nBuf ∧
    (sumBytes [0x8A, 0x06] + (0x6F : Byte).toNat) % 256 = 0xFF ∧ (sumBytes [0x7E] + (0x81 : Byte).toNat) % 256 = 0xFF :=
  ⟨witness_inv_idle, by decide⟩

theorem witness_GarbageLeavesNoTrace : idle.phase = .idle ∧ ∀ b ∈ [(0x7D : Byte), 0x7F, 0x00], b ≠ 0x7E := by decide

/-- P2's frames: one valid, one corrupted. -/
theorem witness_FramesBackToBack :
    idle.Inv ∧ idle.phase = .idle ∧
    (∀ f ∈ [([0x8A, 0x06], 0x6F), (([0x8A, 0x07], 0x6F) : List Byte × Byte)],
      1 ≤ f.1.length ∧ f.1.length ≤ idle.cfg.nBuf) ∧
    frameEvent ([0x8A, 0x06], 0x6F) = .frameOut [0x8A, 0x06] ∧ frameEvent ([0x8A, 0x07], 0x6F) = .drop .checksum :=
  ⟨witness_inv_idle, by decide⟩

theorem witness_PayloadAbsorbsEveryByte :
    oversize.phase = .payloadPending ∧ oversize.dcount.toNat + [(0x7E : Byte)].length ≤ oversize.dlen.toNat := by decide

theorem witness_DecoderRefinesTheSource :
    stepping.Inv ∧ stepping.cfg.nBuf = 65535 ∧ ∃ t, exec (.rxByte 0x06) stepping = .next t :=
  ⟨witness_inv_stepping, rfl, _, rfl⟩

/-- The two states differ at index 1, which the current frame has not written. -/
theorem witness_StaleBufferUnobservable :
    SameButStaleBuffer payload { payload with dbuf := [(0, 0x8A), (1, 0x55)] } ∧
      (∃ s', exec (.data 0x06) payload = .next s') ∧ payload.bufByte 0 = 0x8A := by
  refine ⟨⟨rfl, fun _ i h _ => ?_⟩, ⟨_, rfl⟩, by decide⟩
  obtain rfl : i = 0 := Nat.lt_one_iff.1 h
  decide

/-- A drop, a saturated drop, RESET, and an operation that drops nothing. -/
theorem witness_DropCountCountsDrops :
    (∃ t, exec (.checksum 0x76) complete = .next t ∧ t.events = complete.events ++ [.drop .checksum]) ∧
    (∃ t, exec (.checksum 0x76) { complete with dropCount := 0xFFFFFFFF } = .next t ∧
      t.events = complete.events ++ [.drop .checksum]) ∧
    (∃ t, exec .reset complete = .next t) ∧
    ∃ t, exec .status complete = .next t ∧ Instr.status ≠ .reset ∧ ∀ r, t.events ≠ complete.events ++ [.drop r] :=
  ⟨⟨_, rfl, rfl⟩, ⟨_, rfl, rfl⟩, ⟨_, rfl⟩, _, rfl, by decide, fun r h => by cases h⟩

/-- Each decoder operation; DATA stores at index 1 of `payload` and nowhere in `oversize`. -/
theorem witness_DecoderOperationsFrame :
    (∃ t, exec (.rxByte 0x06) payload = .next t) ∧ (∃ t, exec (.sync 0x7E) idle = .next t) ∧
    (∃ t, exec (.discard 0x00) idle = .next t) ∧ (∃ t, exec (.lenHi 0x00) length0 = .next t) ∧
    (∃ t, exec (.lenLo 0x00) length1 = .next t) ∧ (∃ t, exec (.data 0x06) payload = .next t) ∧
    (∃ t, exec (.checksum 0x6F) complete = .next t) ∧ (Instr.data 0x06).unit = .decoder ∧
    storeIndex payload (.data 0x06) = some 1 ∧ storeIndex oversize (.data 0x06) = none :=
  ⟨⟨_, rfl⟩, ⟨_, rfl⟩, ⟨_, rfl⟩, ⟨_, rfl⟩, ⟨_, rfl⟩, ⟨_, rfl⟩, ⟨_, rfl⟩, by decide⟩

/-- A frame sent and an error raised, in the middle of an inbound frame. -/
theorem witness_EncoderOperationsFrame :
    (∃ t, exec (.buildFrame 0x08 [0x43, 0x48]) payload = .next t) ∧ (Instr.buildFrame 0x08 [0x43, 0x48]).unit = .encoder ∧
    (∃ t, exec (.transmitData (0x00 :: addr64) [] [] none none) payload = .next t) ∧
    (Instr.transmitData (0x00 :: addr64) [] [] none none).unit = .encoder :=
  ⟨⟨_, rfl⟩, rfl, ⟨_, rfl⟩, rfl⟩

theorem witness_OnlyDataWritesTheBuffer :
    (∃ t, exec (.rxByte 0x06) payload = .next t) ∧ storeIndex payload (.rxByte 0x06) = some 1 ∧
      storeIndex oversize (.rxByte 0x06) = none ∧ storeIndex complete (.rxByte 0x06) = none :=
  ⟨⟨_, rfl⟩, by decide⟩

theorem witness_AtMostOneEvent :
    (∃ t, exec (.checksum 0x6F) complete = .next t) ∧ (Instr.checksum 0x6F).unit = .decoder ∧
      (∃ t, exec (.atCommand ⟨0x43, 0x48⟩ none) complete = .next t) ∧
      (Instr.atCommand ⟨0x43, 0x48⟩ none).unit = .encoder :=
  ⟨⟨_, rfl⟩, rfl, ⟨_, rfl⟩, rfl⟩

/-- Operations of both units, and RESET between them. -/
theorem witness_UnitsAreIndependent :
    (∀ i ∈ [Instr.rxByte 0x06, .atCommand ⟨0x43, 0x48⟩ none, .reset, .rxByte 0x7E], i.isHostOp = true) ∧
      ∃ t, runOps [.rxByte 0x06, .atCommand ⟨0x43, 0x48⟩ none, .reset, .rxByte 0x7E] payload = .next t :=
  ⟨by decide, _, rfl⟩

/-- Longer than the field, exactly its size, shorter, and empty, for both sizes. -/
theorem witness_AddrNormPadsOrErrs :
    (0x00 :: addr64).length > 8 ∧ addr64.length = 8 ∧ [(0x12 : Byte), 0x34].length ≤ 8 ∧
      [(0x01 : Byte), 0x02, 0x03].length > 2 ∧ [(0xFF : Byte), 0xFE].length = 2 ∧ [(0x07 : Byte)].length ≤ 2 := by decide

/-- V-E2's content and V-E4's. -/
theorem witness_ChecksumFunction :
    ([] : List Byte).length ≤ 65533 ∧ (List.replicate 65533 (0x00 : Byte)).length ≤ 65533 := by
  simp only [List.length_replicate]
  decide

/-- V-E4 and V-E5: the largest content, and one byte more. -/
theorem witness_BuildFrameSendsTheFrame :
    (List.replicate 65533 (0x00 : Byte)).length ≤ 65533 ∧ 65533 < (List.replicate 65534 (0x00 : Byte)).length ∧
      idle.frameId ≠ 0 ∧ (withFid 255).frameId = 255 := by
  simp only [List.length_replicate]
  decide

/-- V-E5 and V-E10, and one data byte too many for the other builders. -/
theorem witness_LengthLimit :
    65533 < (List.replicate 65534 (0x00 : Byte)).length ∧ 65531 < (List.replicate 65532 (0x00 : Byte)).length ∧
    addr64.length ≤ 8 ∧ [(0xFF : Byte), 0xFE].length ≤ 2 ∧ 65521 < (List.replicate 65522 (0x00 : Byte)).length ∧
    65520 < (List.replicate 65521 (0x00 : Byte)).length := by
  simp only [List.length_replicate]
  decide

/-- A frame sent, a failed command, an inbound byte, and a second frame sent. -/
theorem witness_FrameIdSequence :
    (∀ i ∈ [Instr.buildFrame 0x08 [], .transmitData (0x00 :: addr64) [] [] none none, .rxByte 0x7E,
      .atCommand ⟨0x43, 0x48⟩ none], i.isHostOp = true ∧ i ≠ .reset) ∧ State.reset.frameId = 1 ∧
      ∃ t, runOps [.buildFrame 0x08 [], .transmitData (0x00 :: addr64) [] [] none none, .rxByte 0x7E,
        .atCommand ⟨0x43, 0x48⟩ none] State.reset = .next t :=
  ⟨by decide, rfl, _, rfl⟩

/-- V-E8, V-E9 and V-E10: parameters within, at and beyond the limit. -/
theorem witness_AtCommandBuildsItsFrame :
    ((some [(0xFF : Byte)]).getD []).length ≤ 65531 ∧ ((some (List.replicate 65531 (0x00 : Byte))).getD []).length ≤ 65531 ∧
      65531 < ((some (List.replicate 65532 (0x00 : Byte))).getD []).length := by
  simp only [Option.getD_some, List.length_replicate]
  decide

/-- V-E11 to V-E16: addresses within and beyond their widths, and the data at its limit. -/
theorem witness_TransmitDataBuildsItsFrame :
    addr64.length ≤ 8 ∧ [(0xFF : Byte), 0xFE].length ≤ 2 ∧ (List.replicate 65521 (0x00 : Byte)).length ≤ 65521 ∧
      8 < (0x00 :: addr64).length ∧ 2 < [(0x01 : Byte), 0x02, 0x03].length ∧
      65521 < (List.replicate 65522 (0x00 : Byte)).length := by
  simp only [List.length_replicate]
  decide

/-- V-E17 to V-E19, addresses beyond their widths, and the parameters at their limit. -/
theorem witness_RemoteAtBuildsItsFrame :
    addr64.length ≤ 8 ∧ [(0xFF : Byte), 0xFE].length ≤ 2 ∧
      ((some (List.replicate 65520 (0x00 : Byte))).getD []).length ≤ 65520 ∧
      8 < (0x00 :: addr64).length ∧ 2 < [(0x01 : Byte), 0x02, 0x03].length ∧
      65520 < ((some (List.replicate 65521 (0x00 : Byte))).getD []).length := by
  simp only [Option.getD_some, List.length_replicate]
  decide

/-- V-E20 to V-E25: a route of 255 hops and of 256, hops within and beyond two bytes. -/
theorem witness_CreateSourceRouteBuildsItsFrame :
    addr64.length ≤ 8 ∧ [(0x12 : Byte), 0x34].length ≤ 2 ∧ (List.replicate 255 [(0x01 : Byte), 0x02]).length ≤ 255 ∧
      (∀ h ∈ [[(0xAA : Byte), 0xBB], [0x05], []], h.length ≤ 2) ∧ 8 < (0x00 :: addr64).length ∧
      255 < (List.replicate 256 [(0x01 : Byte), 0x02]).length ∧ ∃ h ∈ [[(0x01 : Byte), 0x02, 0x03]], 2 < h.length := by
  simp only [List.length_replicate]
  decide

theorem witness_EncoderFailureIsAtomic :
    (Instr.createSourceRoute [] [] [[0x01, 0x02, 0x03]]).unit = .encoder ∧
      ∃ t, exec (.createSourceRoute [] [] [[0x01, 0x02, 0x03]]) idle = .next t ∧
        Event.err .addrTooLong ∈ t.events.drop idle.events.length :=
  ⟨rfl, _, rfl, by decide⟩

theorem witness_SentFrameIsWhole :
    (Instr.atCommand ⟨0x43, 0x48⟩ none).unit = .encoder ∧ ∃ t, exec (.atCommand ⟨0x43, 0x48⟩ none) idle = .next t :=
  ⟨rfl, _, rfl⟩

theorem witness_SentFrameIdIsNeverZero :
    (withFid 0xFF).frameId ≠ 0 ∧ (Instr.atCommand ⟨0x43, 0x48⟩ none).unit = .encoder ∧
      ∃ t bs, exec (.atCommand ⟨0x43, 0x48⟩ none) (withFid 0xFF) = .next t ∧ t.events = (withFid 0xFF).events ++ [.txFrame bs] :=
  ⟨by decide, rfl, _, _, rfl, rfl⟩

/-- P1: the frame of AT Command CH, in the chunks of steps 3 to 5. -/
theorem witness_RoundTripThroughTheDecoder :
    idle.Inv ∧ idle.phase = .idle ∧ [(0x43 : Byte), 0x48].length + 2 ≤ idle.cfg.nBuf ∧
      newEvents State.reset (exec (.buildFrame 0x08 [0x43, 0x48]) State.reset) =
        some [.txFrame [[0x7E, 0x00], [0x04, 0x08, 0x01], [0x43, 0x48, 0x6B]].flatten] :=
  ⟨witness_inv_idle, by decide⟩

/-- Each clause of the order is reached: both addresses too long, dest16 alone, the hop count before a long hop, a long
hop alone. -/
theorem witness_EncoderErrorOrder :
    8 < (0x00 :: addr64).length ∧ ¬8 < addr64.length ∧ 2 < [(0x01 : Byte), 0x02, 0x03].length ∧
      ¬2 < [(0x12 : Byte), 0x34].length ∧ 255 < (List.replicate 256 [(0x01 : Byte), 0x02, 0x03]).length ∧
      ¬255 < (List.replicate 255 [(0x01 : Byte), 0x02, 0x03]).length ∧
      65521 < (List.replicate 65522 (0x00 : Byte)).length := by
  simp only [List.length_replicate]
  decide

end Sys2Proof.Tests
end

section
/-! SUPPORT. The serial form is read back, a step runs the operation read, and a host operation does the same whatever
else waits in the stream: from these, a run of steps is the run of the operations delivered (00_scope.md R8, R9). -/

namespace Sys2Proof

/-- A host operation's encoding is decoded to that operation, with what follows it left (30_encoding.md R70, log 1). -/
theorem decode_encode_append {i : Instr} (hi : i.isHostOp = true) (rest : List Byte) :
    decode (encode i ++ rest) = .ok (i, rest) := by
  cases i with
  | rxByte b => rfl
  | buildFrame ty content =>
    simp [encode, decode, decodeByte_cons, decodeSeq_encodeSeq, bind, Except.bind, pure, Except.pure]
  | atCommand cmd params =>
    simp [encode, decode, decodeCmd_cons, decodeOptSeq_encodeOptSeq, bind, Except.bind, pure, Except.pure]
  | transmitData dest64 dest16 data options radius =>
    simp [encode, decode, decodeSeq_encodeSeq, decodeOptByte_encodeOptByte, bind, Except.bind, pure, Except.pure]
  | remoteAt dest64 dest16 cmd params options =>
    simp [encode, decode, decodeSeq_encodeSeq, decodeCmd_cons, decodeOptSeq_encodeOptSeq, decodeOptByte_encodeOptByte,
      bind, Except.bind, pure, Except.pure]
  | createSourceRoute dest64 dest16 route =>
    have hroute := decodeSeqs_self route rest
    simp only [List.length_append] at hroute
    simp [encode, decode, decodeSeq_encodeSeq, hroute, bind, Except.bind, pure, Except.pure]
  | status => rfl
  | reset => rfl
  | sync b | discard b | lenHi b | lenLo b | data b | checksum c => cases hi

theorem encodeAll_cons (i : Instr) (is : List Instr) : encodeAll (i :: is) = encode i ++ encodeAll is := rfl

end Sys2Proof

namespace Sys2Proof.Machine

/-- A step runs the operation the stream begins with, at the state that has the rest of the stream. -/
theorem step_of_decode {s : State} {i : Instr} {rest : List Byte} (h : decode s.opIn = .ok (i, rest)) :
    step s = exec i { s with opIn := rest } := by
  have hne : s.opIn ≠ [] := by
    intro h0
    rw [h0] at h
    cases h
  simp [step, State.fetch, hne, h]

/-- The action selected is one of the six, with the inbound byte (30_encoding.md R73). -/
theorem State.select_cases (s : State) (b : Byte) :
    s.select b = .sync b ∨ s.select b = .discard b ∨ s.select b = .lenHi b ∨ s.select b = .lenLo b ∨
      s.select b = .data b ∨ s.select b = .checksum b := by
  unfold State.select selectAction
  cases s.phase <;> dsimp only <;> split <;> simp

/-- The selected action does the same with any stream of waiting operations, and leaves that stream. -/
theorem exec_select_anyStream (s : State) (b : Byte) :
    ∃ t : State, ∀ ops, exec (s.select b) { s with opIn := ops } = .next { t with opIn := ops } := by
  rcases s.select_cases b with h | h | h | h | h | h <;> rw [h]
  · exact ⟨{ s with phase := .lengthPending, lcount := 0 },
      fun ops => State.ifSelected_of_eq (s := { s with opIn := ops }) _ _ h⟩
  · exact ⟨s, fun ops => State.ifSelected_of_eq (s := { s with opIn := ops }) _ _ h⟩
  · exact ⟨{ s with dlen := b.zeroExtend 16 * 256, lcount := 1 },
      fun ops => State.ifSelected_of_eq (s := { s with opIn := ops }) _ _ h⟩
  · exact ⟨{ s with dlen := s.dlen + b.zeroExtend 16, lcount := 0, dcount := 0, dsum := 0, phase := .payloadPending },
      fun ops => State.ifSelected_of_eq (s := { s with opIn := ops }) _ _ h⟩
  · exact ⟨{ s with
        dbuf := if s.dcount.toNat < s.cfg.nBuf then s.dbuf.write s.dcount.toNat b else s.dbuf
        dsum := s.dsum + b
        dcount := s.dcount + 1 },
      fun ops => execData_of_select (s := { s with opIn := ops }) h⟩
  · have hexec (ops : List Byte) := execChecksum_of_select (s := { s with opIn := ops }) h
    have hreason (ops : List Byte) : State.dropReason { s with opIn := ops } b = s.dropReason b := rfl
    simp only [hreason] at hexec
    cases hr : s.dropReason b with
    | some r =>
      simp only [hr] at hexec
      exact ⟨(s.dropFrame r).toIdle, hexec⟩
    | none =>
      simp only [hr] at hexec
      exact ⟨(s.emit (.frameOut ((List.range s.dlen.toNat).map s.bufByte))).toIdle, hexec⟩

/-- An encoder operation does the same with any stream of waiting operations, and leaves that stream. -/
theorem exec_encoder_anyStream {i : Instr} (hi : i.unit = .encoder) (s : State) :
    ∃ t : State, ∀ ops, exec i { s with opIn := ops } = .next { t with opIn := ops } := by
  rcases exec_encoder_uniform hi with ⟨e, he⟩ | ⟨ty, content, -, hs⟩
  · exact ⟨s.emit (.err e), fun _ => he _⟩
  · exact ⟨s.sent (frameBytes s.cfg ty s.frameId content), fun _ => hs _⟩

/-- A host operation completes in every state, does the same with any stream of waiting operations, and leaves that
stream (60_exceptions.md R179). -/
theorem exec_hostOp_anyStream {i : Instr} (hi : i.isHostOp = true) (s : State) :
    ∃ t : State, ∀ ops, exec i { s with opIn := ops } = .next { t with opIn := ops } := by
  cases i with
  | rxByte b =>
    obtain ⟨t, ht⟩ := exec_select_anyStream s b
    exact ⟨t, fun ops => (execRxByte_of_select (s := { s with opIn := ops }) rfl).trans (ht ops)⟩
  | buildFrame | atCommand | transmitData | remoteAt | createSourceRoute => exact exec_encoder_anyStream rfl s
  | status => exact ⟨s.emit (.statusOut s.statusRecord), fun _ => rfl⟩
  | reset => exact ⟨{ s.toIdle with dropCount := 0, frameId := s.cfg.fidFirst.value }, fun _ => rfl⟩
  | sync b | discard b | lenHi b | lenLo b | data b | checksum c => cases hi

/-- A run of at least one step goes on from where its first step led. -/
theorem run_succ_of_step {M : Host.Core} {s t : M.State} (k : Nat) (h : M.step s = .next t) :
    M.run (k + 1) s = M.run k t := by
  simp [Host.Core.run, h]

/-- RX_BYTE writes no parameter: in none of its six cases. -/
theorem execRxByte_next_cfg {b : Byte} {s t : State} (h : execRxByte b s = .next t) : t.cfg = s.cfg := by
  rcases execRxByte_cases b s with ⟨-, -, he⟩ | ⟨-, -, he⟩ | ⟨-, -, he⟩ | ⟨-, -, he⟩ | ⟨-, -, he⟩ | ⟨-, -, he⟩ <;>
    obtain rfl := Host.Outcome.next.inj (he.symm.trans h)
  iterate 5 · rfl
  · cases s.dropReason b <;> rfl

/-- No instruction writes a parameter (00_scope.md R10). -/
theorem exec_next_cfg {i : Instr} {s t : State} (h : exec i s = .next t) : t.cfg = s.cfg := by
  cases hu : i.unit with
  | decoder =>
    obtain ⟨b, -, hb⟩ := exec_decoder_next hu h
    exact execRxByte_next_cfg hb
  | encoder =>
    rcases exec_encoder_cases hu s with ⟨e, he⟩ | ⟨ty, content, -, he⟩ <;> cases he.symm.trans h <;> rfl
  | both =>
    cases i with
    | status | reset => cases h; rfl
    | _ => cases hu

/-- Settles O4: the fetch takes the decoded operation's bytes off the stream. -/
theorem stepRunsDecodedOperation : Obligations.StepRunsDecodedOperation :=
  fun _ _ _ h => step_of_decode h

/-- Settles O5, by induction on the operations: a step does the first of them as if only `rest` waited behind it, and
leaves the encodings of the others at the head of the stream. -/
theorem stepsRunTheOperationsInOrder : Obligations.StepsRunTheOperationsInOrder := by
  intro is
  induction is with
  | nil =>
    rintro s rest - rfl
    rfl
  | cons i is ih =>
    intro s rest hhost hstream
    obtain ⟨hi, his⟩ := List.forall_mem_cons.1 hhost
    obtain ⟨t, ht⟩ := exec_hostOp_anyStream hi s
    rw [encodeAll_cons, List.append_assoc] at hstream
    have hdecode : decode s.opIn = .ok (i, encodeAll is ++ rest) := hstream ▸ decode_encode_append hi _
    have hstep : step s = .next { t with opIn := encodeAll is ++ rest } := (step_of_decode hdecode).trans (ht _)
    have hrest : Host.Core.run Sys2Proof.core is.length { t with opIn := encodeAll is ++ rest } =
        runOps is { t with opIn := rest } := ih _ rest his rfl
    rw [runOps_cons_next is (ht rest)]
    exact (run_succ_of_step (M := Sys2Proof.core) is.length hstep).trans hrest

/-- Settles O56: the fixed parameters by their types, the ranges by cases, and the frame by `exec_next_cfg`. -/
theorem parametersOfTheCodec : Obligations.ParametersOfTheCodec := by
  refine ⟨fun c => ⟨rfl, rfl, rfl, rfl, rfl, rfl, rfl, ?legal, ?empty⟩, rfl, rfl, fun _ _ _ => exec_next_cfg⟩
  case legal => simp [Config.legal]
  case empty => cases c.pEmpty <;> simp

end Sys2Proof.Machine
end

section
/-! SUPPORT. The registers of 10_state.md: RX_BYTE against the source's decoder, buffer bytes the current frame has not
written, the drop counter, and what each unit leaves unchanged. -/

namespace Sys2Proof.Machine

/-! ### Reading the buffer and the length field -/

/-- A buffer read after a write (20_memory.md R40). -/
theorem State.bufByte_write (s : State) (i : Nat) (b : Byte) (k : Nat) :
    State.bufByte { s with dbuf := s.dbuf.write i b } k = if k = i then b else s.bufByte k := by
  simp only [State.bufByte, Memory.read_write]
  split <;> rfl

theorem State.length_stored (s : State) (n : Nat) : (s.stored n).length = n := by
  simp [State.stored]

/-- The bytes below an index, read after a write at that index, are the bytes before it and the one written. -/
theorem State.stored_write_succ (s : State) (n : Nat) (b : Byte) :
    State.stored { s with dbuf := s.dbuf.write n b } (n + 1) = s.stored n ++ [b] := by
  simp only [State.stored, List.range_succ, List.map_append, List.map_cons, List.map_nil, State.bufByte_write, if_true]
  congr 1
  refine List.map_congr_left fun i hi => ?_
  rw [State.bufByte_write, if_neg (Nat.ne_of_lt (List.mem_range.1 hi))]

/-- The length field is its two halves, high byte first (20_memory.md R43). -/
theorem hi_lo_toNat (x : U16) : (hi x).toNat * 256 + (lo x).toNat = x.toNat := by
  rw [hi_toNat, lo_toNat]
  omega

theorem hi_byte_mul_256 (b : Byte) : hi (b.zeroExtend 16 * 256) = b := by
  apply BitVec.eq_of_toNat_eq
  have h256 : (256 : U16).toNat = 256 := rfl
  simp only [hi_toNat, BitVec.toNat_mul, BitVec.truncate_eq_setWidth, BitVec.toNat_setWidth, h256]
  omega

/-- Adding a byte to a length whose low half is 0 writes the low half alone (40_decoder.md R104). -/
theorem hi_add_byte {x : U16} (hx : lo x = 0) (b : Byte) : hi (x + b.zeroExtend 16) = hi x := by
  have h0 : x.toNat % 256 = 0 := by rw [← lo_toNat, hx]; rfl
  apply BitVec.eq_of_toNat_eq
  simp only [hi_toNat, BitVec.toNat_add, BitVec.truncate_eq_setWidth, BitVec.toNat_setWidth]
  omega

theorem lo_add_byte {x : U16} (hx : lo x = 0) (b : Byte) : lo (x + b.zeroExtend 16) = b := by
  have h0 : x.toNat % 256 = 0 := by rw [← lo_toNat, hx]; rfl
  apply BitVec.eq_of_toNat_eq
  simp only [lo_toNat, BitVec.toNat_add, BitVec.truncate_eq_setWidth, BitVec.toNat_setWidth]
  omega

/-! ### The source's decoder and the registers -/

theorem State.partialFrame_idle {s : State} (hp : s.phase = .idle) : s.partialFrame = none := by
  simp [State.partialFrame, hp]

theorem State.partialFrame_sync {s : State} (hp : s.phase = .lengthPending) (hl : s.lcount = 0) :
    s.partialFrame = some [] := by
  simp [State.partialFrame, hp, hl]

theorem State.partialFrame_lenHi {s : State} (hp : s.phase = .lengthPending) (hl : s.lcount ≠ 0) :
    s.partialFrame = some [hi s.dlen] := by
  rw [State.partialFrame, hp]
  exact if_neg hl

theorem State.partialFrame_payload {s : State} (hp : s.phase = .payloadPending) :
    s.partialFrame = some (hi s.dlen :: lo s.dlen :: s.stored s.dcount.toNat) := by
  simp [State.partialFrame, hp]

section
variable (pEmpty : EmptyPolicy) (h l b : Byte)

theorem sourceDecode_none : sourceDecode pEmpty none b = (if b = 0x7E then some [] else none, none) := rfl

theorem sourceDecode_nil : sourceDecode pEmpty (some []) b = (some [b], none) := rfl

theorem sourceDecode_singleton : sourceDecode pEmpty (some [h]) b = (some [h, b], none) := rfl

theorem sourceDecode_of_lt {d : List Byte} (hd : d.length < h.toNat * 256 + l.toNat) :
    sourceDecode pEmpty (some (h :: l :: d)) b = (some (h :: l :: d ++ [b]), none) := if_pos hd

theorem sourceDecode_of_ge {d : List Byte} (hd : h.toNat * 256 + l.toNat ≤ d.length) :
    sourceDecode pEmpty (some (h :: l :: d)) b =
      if (sumBytes d + b.toNat) % 256 ≠ 0xFF then (none, some (.drop .checksum))
      else if d = [] ∧ pEmpty = .drop then (none, some (.drop .empty))
      else (none, some (.frameOut d)) := if_neg (Nat.not_lt.2 hd)

end

/-- With the frame data `d` received, stored and summed, the drop reason is read off `d` (40_decoder.md R107). -/
theorem State.dropReason_of_received {s : State} {d : List Byte} (c : Byte)
    (hsum : s.dsum = BitVec.ofNat 8 (sumBytes d)) (hlen : d.length = s.dlen.toNat) (hfit : s.dlen.toNat ≤ s.cfg.nBuf) :
    s.dropReason c = if (sumBytes d + c.toNat) % 256 ≠ 0xFF then some .checksum
      else if d = [] ∧ s.cfg.pEmpty = .drop then some .empty else none := by
  have hcsum : csumOk s.dsum c = false ↔ (sumBytes d + c.toNat) % 256 ≠ 0xFF := by
    rw [← Bool.not_eq_true, csumOk_iff, hsum, BitVec.toNat_ofNat]
    omega
  have hempty : s.dlen = 0 ↔ d = [] := by
    rw [← List.length_eq_zero_iff, hlen, ← BitVec.toNat_inj]
    rfl
  simp only [State.dropReason, hcsum, hempty, Nat.not_lt.2 hfit, if_false]

/-- RX_BYTE does to the partial-frame buffer, and emits, what the source's decoder does (10_state.md R20). -/
theorem execRxByte_refines_sourceDecode {s t : State} {b : Byte} (hinv : s.Inv) (hbuf : s.cfg.nBuf = 65535)
    (h : execRxByte b s = .next t) :
    t.partialFrame = (sourceDecode s.cfg.pEmpty s.partialFrame b).1 ∧
      t.events = s.events ++ (sourceDecode s.cfg.pEmpty s.partialFrame b).2.toList := by
  have hlenBuf : s.dlen.toNat ≤ s.cfg.nBuf := by omega
  rcases execRxByte_cases b s with ⟨hp, hb, he⟩ | ⟨hp, hb, he⟩ | ⟨hp, hl, he⟩ | ⟨hp, hl, he⟩ | ⟨hp, hd, he⟩ | ⟨hp, hd, he⟩ <;>
    obtain rfl := Host.Outcome.next.inj (he.symm.trans h)
  · rw [State.partialFrame_idle hp, sourceDecode_none, if_pos hb]
    exact ⟨State.partialFrame_sync rfl rfl, (List.append_nil _).symm⟩
  · rw [State.partialFrame_idle hp, sourceDecode_none, if_neg hb]
    exact ⟨rfl, (List.append_nil _).symm⟩
  · rw [State.partialFrame_sync hp hl, sourceDecode_nil]
    refine ⟨?_, (List.append_nil _).symm⟩
    rw [State.partialFrame_lenHi, hi_byte_mul_256]
    · exact hp
    · exact (by decide : (1 : BitVec 1) ≠ 0)
  · obtain ⟨-, -, -, hlo⟩ := hinv.whenLength hp
    rw [State.partialFrame_lenHi hp hl, sourceDecode_singleton]
    refine ⟨?_, (List.append_nil _).symm⟩
    rw [State.partialFrame_payload rfl, hi_add_byte hlo, lo_add_byte hlo]
    rfl
  · rw [State.partialFrame_payload hp, sourceDecode_of_lt]
    · refine ⟨?_, (List.append_nil _).symm⟩
      have hnext : (s.dcount + 1).toNat = s.dcount.toNat + 1 := by bv_omega
      have hroom : s.dcount.toNat < s.cfg.nBuf := by omega
      rw [State.partialFrame_payload, if_pos hroom, hnext]
      · exact congrArg (fun d => some (hi s.dlen :: lo s.dlen :: d)) (s.stored_write_succ s.dcount.toNat b)
      · exact hp
    · rw [hi_lo_toNat, s.length_stored]
      exact hd
  · obtain ⟨-, hle⟩ := hinv.whenPayload hp
    have hcount : s.dcount.toNat = s.dlen.toNat := by omega
    have hsum : s.dsum = BitVec.ofNat 8 (sumBytes (s.stored s.dlen.toNat)) := hcount ▸ hinv.payloadSum hp (by omega)
    rw [State.partialFrame_payload hp, hcount, sourceDecode_of_ge,
      State.dropReason_of_received b hsum (s.length_stored _) hlenBuf]
    · split_ifs <;> exact ⟨rfl, rfl⟩
    · rw [hi_lo_toNat, s.length_stored]

/-- Settles O32: `execRxByte_refines_sourceDecode`, a simulation by the six cases of RX_BYTE. -/
theorem decoderRefinesTheSource : Obligations.DecoderRefinesTheSource :=
  fun _ _ _ hinv hbuf h => execRxByte_refines_sourceDecode hinv hbuf h

/-! ### Buffer bytes the current frame has not written -/

/-- Where CHECKSUM is selected, the whole frame has been received (30_encoding.md R73; log 8 for a `dcount` above
`dlen`). -/
theorem State.received_of_select_checksum {s : State} {b : Byte} (h : s.select b = .checksum b) :
    s.phase = .payloadPending ∧ s.dlen.toNat ≤ s.dcount.toNat := by
  unfold State.select selectAction at h
  cases hp : s.phase with
  | idle | lengthPending => simp only [hp] at h; split at h <;> cases h
  | payloadPending =>
    simp only [hp] at h
    split at h
    · cases h
    · exact ⟨rfl, Nat.not_lt.1 ‹_›⟩

/-- A read, inside the buffer, after what DATA does to it: the byte stored, where there was room for it (40_decoder.md
R106). -/
theorem Memory.read_store (m : Memory) {n i : Nat} (k : Nat) (b : Byte) (hi : i < n) :
    (if k < n then m.write k b else m).read i = if i = k then some b else m.read i := by
  split
  · exact Memory.read_write m k b i
  · rw [if_neg (by omega)]

/-- The second state is the first with another buffer, which holds the same current frame. -/
theorem sameButStaleBuffer_iff {s t : State} : SameButStaleBuffer s t ↔ ∃ m, t = { s with dbuf := m } ∧
    (s.phase = .payloadPending → ∀ i, i < s.dcount.toNat → i < s.cfg.nBuf →
      s.bufByte i = State.bufByte { s with dbuf := m } i) := by
  constructor
  · rintro ⟨ht, hread⟩
    exact ⟨t.dbuf, ht, ht ▸ hread⟩
  · rintro ⟨m, rfl, hread⟩
    exact ⟨rfl, hread⟩

/-- The action selected does not depend on the buffer (30_encoding.md R73). -/
theorem SameButStaleBuffer.select_eq {s t : State} (h : SameButStaleBuffer s t) (b : Byte) : t.select b = s.select b := by
  obtain ⟨ht, -⟩ := h
  rw [ht]
  rfl

/-- The action selected does not read the buffer, and does alike from states alike but for stale bytes: only CHECKSUM
reads bytes, and it reads only those the frame has written. -/
theorem exec_select_sameButStaleBuffer {s t s' : State} {b : Byte} (hst : SameButStaleBuffer s t)
    (he : exec (s.select b) s = .next s') : ∃ t', exec (s.select b) t = .next t' ∧ SameButStaleBuffer s' t' := by
  obtain ⟨m, rfl, hread⟩ := sameButStaleBuffer_iff.1 hst
  rcases s.select_cases b with hsync | hdiscard | hlenHi | hlenLo | hdata | hchecksum
  · rw [hsync] at he ⊢
    obtain ⟨-, ⟨⟩⟩ := State.ifSelected_next.1 he
    exact ⟨_, State.ifSelected_of_eq (s := { s with dbuf := m }) _ _ hsync, rfl, nofun⟩
  · rw [hdiscard] at he ⊢
    obtain ⟨-, ⟨⟩⟩ := State.ifSelected_next.1 he
    exact ⟨_, State.ifSelected_of_eq (s := { s with dbuf := m }) _ _ hdiscard, hst⟩
  · rw [hlenHi] at he ⊢
    obtain ⟨-, ⟨⟩⟩ := State.ifSelected_next.1 he
    exact ⟨_, State.ifSelected_of_eq (s := { s with dbuf := m }) _ _ hlenHi, rfl, hread⟩
  · rw [hlenLo] at he ⊢
    obtain ⟨-, ⟨⟩⟩ := State.ifSelected_next.1 he
    exact ⟨_, State.ifSelected_of_eq (s := { s with dbuf := m }) _ _ hlenLo, rfl,
      fun _ i hi => absurd hi (Nat.not_lt_zero i)⟩
  · rw [hdata] at he ⊢
    cases (execData_of_select hdata).symm.trans he
    refine ⟨_, execData_of_select (s := { s with dbuf := m }) hdata, rfl, fun hp i hi hbuf => ?_⟩
    simp only [State.bufByte, Memory.read_store _ _ _ hbuf]
    split
    · rfl
    · exact hread hp i (by bv_omega) hbuf
  · rw [hchecksum] at he ⊢
    cases (execChecksum_of_select hchecksum).symm.trans he
    obtain ⟨hp, hd⟩ := State.received_of_select_checksum hchecksum
    refine ⟨_, execChecksum_of_select (s := { s with dbuf := m }) hchecksum, ?_⟩
    have hreason : State.dropReason { s with dbuf := m } b = s.dropReason b := rfl
    rw [hreason]
    cases hr : s.dropReason b with
    | some r => exact ⟨rfl, nofun⟩
    | none =>
      obtain ⟨-, -, hfit⟩ := State.dropReason_none hr
      have hframe : (List.range s.dlen.toNat).map s.bufByte =
          (List.range s.dlen.toNat).map (State.bufByte { s with dbuf := m }) := List.map_congr_left fun i hi =>
        have hlt := List.mem_range.1 hi
        hread hp i (by omega) (by omega)
      exact ⟨by rw [hframe]; rfl, nofun⟩

/-- Settles O33: a decoder operation does the selected action, and the others read no buffer byte. -/
theorem staleBufferUnobservable : Obligations.StaleBufferUnobservable := by
  intro i s t s' hst he
  cases hu : i.unit with
  | decoder =>
    obtain ⟨b, hi, hb⟩ := exec_decoder_next hu he
    obtain ⟨t', ht, hst'⟩ := exec_select_sameButStaleBuffer hst ((execRxByte_of_select rfl).symm.trans hb)
    refine ⟨t', ?_, hst'⟩
    rcases hi with rfl | rfl
    · exact (execRxByte_of_select (hst.select_eq b)).trans ht
    · exact ht
  | encoder =>
    obtain ⟨m, rfl, hread⟩ := sameButStaleBuffer_iff.1 hst
    rcases exec_encoder_uniform hu with ⟨e, hs⟩ | ⟨ty, content, -, hs⟩ <;>
      cases (hs s).symm.trans he <;> exact ⟨_, hs _, rfl, hread⟩
  | both =>
    obtain ⟨m, rfl, hread⟩ := sameButStaleBuffer_iff.1 hst
    cases i with
    | status => cases he; exact ⟨_, rfl, rfl, hread⟩
    | reset => cases he; exact ⟨_, rfl, rfl, nofun⟩
    | _ => cases hu

/-! ### The drop counter -/

/-- What an instruction does to the drop counter: it drops a frame and counts it, or drops none and leaves the count, or
it is RESET (10_state.md R26). -/
theorem exec_next_dropCount {i : Instr} {s t : State} (h : exec i s = .next t) :
    (i ≠ .reset ∧ ∃ r, t.events = s.events ++ [.drop r] ∧ t.dropCount = satSucc s.cfg s.dropCount) ∨
      (i ≠ .reset ∧ (∀ r, t.events ≠ s.events ++ [.drop r]) ∧ t.dropCount = s.dropCount) ∨
      (i = .reset ∧ t.events = s.events ∧ t.dropCount = 0) := by
  cases hu : i.unit with
  | decoder =>
    have hi : i ≠ .reset := by rintro rfl; cases hu
    obtain ⟨b, -, hb⟩ := exec_decoder_next hu h
    rcases execRxByte_cases b s with ⟨-, -, he⟩ | ⟨-, -, he⟩ | ⟨-, -, he⟩ | ⟨-, -, he⟩ | ⟨-, -, he⟩ | ⟨-, -, he⟩ <;>
      obtain rfl := Host.Outcome.next.inj (he.symm.trans hb)
    iterate 5 · exact .inr (.inl ⟨hi, by simp, rfl⟩)
    · cases s.dropReason b with
      | some r => exact .inl ⟨hi, r, rfl, rfl⟩
      | none => exact .inr (.inl ⟨hi, by simp, rfl⟩)
  | encoder =>
    have hi : i ≠ .reset := by rintro rfl; cases hu
    rcases exec_encoder_cases hu s with ⟨e, he⟩ | ⟨ty, content, -, he⟩ <;> cases he.symm.trans h <;>
      exact .inr (.inl ⟨hi, by simp, rfl⟩)
  | both =>
    cases i with
    | status => cases h; exact .inr (.inl ⟨nofun, by simp, rfl⟩)
    | reset => cases h; exact .inr (.inr ⟨rfl, rfl, rfl⟩)
    | _ => cases hu

/-- The saturating successor, by its two cases (10_state.md R26). -/
theorem satSucc_eq_ite (cfg : Config) (n : BitVec cntWidth) :
    satSucc cfg n = if n = 0xFFFFFFFF then 0xFFFFFFFF else n + 1 := by
  apply BitVec.eq_of_toNat_eq
  rw [satSucc_toNat]
  simp only [cntWidth] at n ⊢
  split <;> bv_omega

/-- Settles O34: the three cases of `exec_next_dropCount`. -/
theorem dropCountCountsDrops : Obligations.DropCountCountsDrops := by
  intro i s t h
  rcases exec_next_dropCount h with ⟨hi, r, hev, hcount⟩ | ⟨hi, hev, hcount⟩ | ⟨hi, hev, hcount⟩
  · exact ⟨fun _ _ => hcount.trans (satSucc_eq_ite _ _), fun h => absurd h hi, fun _ hno => absurd hev (hno r)⟩
  · exact ⟨fun r hr => absurd hr (hev r), fun h => absurd h hi, fun _ _ => hcount⟩
  · exact ⟨fun r hr => by simp [hev] at hr, fun _ => hcount, fun h => absurd hi h⟩

/-! ### What each unit's operations leave unchanged -/

/-- An action that is selected stores where RX_BYTE of its byte stores. -/
theorem storeIndex_of_select {s : State} {b : Byte} {i : Instr} (h : s.select b = i) :
    storeIndex s i = storeIndex s (.rxByte b) := by
  subst h
  rcases s.select_cases b with h | h | h | h | h | h <;> simp [h, storeIndex]

/-- RX_BYTE leaves the identifier and the waiting operations alone, and writes the buffer at its store index only. -/
theorem execRxByte_frame {b : Byte} {s t : State} (h : execRxByte b s = .next t) :
    t.frameId = s.frameId ∧ t.opIn = s.opIn ∧
      ∀ a, storeIndex s (.rxByte b) ≠ some a → t.dbuf.read a = s.dbuf.read a := by
  rcases execRxByte_cases b s with ⟨-, -, he⟩ | ⟨-, -, he⟩ | ⟨-, -, he⟩ | ⟨-, -, he⟩ | ⟨hp, hd, he⟩ | ⟨-, -, he⟩ <;>
    obtain rfl := Host.Outcome.next.inj (he.symm.trans h)
  iterate 4 · exact ⟨rfl, rfl, fun _ _ => rfl⟩
  · refine ⟨rfl, rfl, fun a ha => ?_⟩
    have hsel : s.select b = .data b := by simp [State.select, selectAction, hp, hd]
    dsimp only
    split
    · next hroom =>
      have hne : a ≠ s.dcount.toNat := by
        rintro rfl
        exact ha (if_pos ⟨hsel, hroom⟩)
      rw [Memory.read_write, if_neg hne]
    · rfl
  · cases s.dropReason b <;> exact ⟨rfl, rfl, fun _ _ => rfl⟩

/-- Settles O35: a decoder operation does what RX_BYTE does with some byte. -/
theorem decoderOperationsFrame : Obligations.DecoderOperationsFrame := by
  intro i s t hu h
  obtain ⟨b, hi, hb⟩ := exec_decoder_next hu h
  have hstore : storeIndex s i = storeIndex s (.rxByte b) := by
    rcases hi with rfl | hi
    · rfl
    · exact storeIndex_of_select hi
  obtain ⟨hid, hops, hread⟩ := execRxByte_frame hb
  exact ⟨hid, exec_next_cfg h, hops, hstore ▸ hread⟩

/-- Settles O36: an encoder operation raises one error, or sends one frame and advances the identifier. -/
theorem encoderOperationsFrame : Obligations.EncoderOperationsFrame := by
  intro i s t hu h
  rcases exec_encoder_cases hu s with ⟨e, he⟩ | ⟨ty, content, -, he⟩ <;> cases he.symm.trans h <;>
    exact ⟨rfl, rfl, fun _ => rfl⟩

/-- Settles O1: the fields of `State.reset`. -/
theorem resetRegisterValues : Obligations.ResetRegisterValues :=
  ⟨rfl, rfl, rfl, rfl, rfl, rfl, rfl⟩

end Sys2Proof.Machine
end

section
/-! SUPPORT. The memory model of 20_memory.md: the two units' operations do not interfere, the length field is read
big-endian, and the frame buffer is written by DATA alone and never outside its indices. -/

namespace Sys2Proof.Machine

/-! ### Non-interference of the two units -/

/-- If a relation is kept by doing a kept operation on both sides, and by doing a left-out operation on the left alone,
then a run is simulated by the run of the kept operations. -/
theorem runOps_filter_simulates {R : State → State → Prop} {keep : Instr → Bool}
    (hkept : ∀ {i s u s'}, keep i = true → R s u → exec i s = .next s' → ∃ u', exec i u = .next u' ∧ R s' u')
    (hleftOut : ∀ {i s u s'}, keep i = false → R s u → exec i s = .next s' → R s' u)
    (is : List Instr) {s u t : State} (hR : R s u) (h : runOps is s = .next t) :
    ∃ v, runOps (is.filter keep) u = .next v ∧ R t v := by
  induction is generalizing s u with
  | nil => cases h; exact ⟨u, rfl, hR⟩
  | cons i is ih =>
    obtain ⟨s', he, hrun⟩ := runOps_cons_inv h
    cases hk : keep i with
    | true =>
      obtain ⟨u', hu, hR'⟩ := hkept hk hR he
      rw [List.filter_cons_of_pos hk, runOps_cons_next _ hu]
      exact ih hR' hrun
    | false =>
      rw [List.filter_cons_of_neg (by simp [hk])]
      exact ih (hleftOut hk hR he) hrun

/-- An event on another channel does not show among the selected ones. -/
theorem filter_events_append_of_false {p : Event → Bool} {e : Event} (es : List Event) (he : p e = false) :
    (es ++ [e]).filter p = es.filter p := by
  simp [he]

/-- One more event on both sides keeps the selected events equal. -/
theorem filter_events_append_congr {p : Event → Bool} {es es' : List Event} (e : Event)
    (h : es'.filter p = es.filter p) : (es' ++ [e]).filter p = (es ++ [e]).filter p := by
  rw [List.filter_append, List.filter_append, h]

/-- The events RX_BYTE emits: none, or one on a channel of the decoder (30_encoding.md R71). -/
theorem execRxByte_next_events {b : Byte} {s t : State} (h : execRxByte b s = .next t) :
    t.events = s.events ∨ (∃ r, t.events = s.events ++ [.drop r]) ∨ ∃ d, t.events = s.events ++ [.frameOut d] := by
  rcases execRxByte_cases b s with ⟨-, -, he⟩ | ⟨-, -, he⟩ | ⟨-, -, he⟩ | ⟨-, -, he⟩ | ⟨-, -, he⟩ | ⟨-, -, he⟩ <;>
    obtain rfl := Host.Outcome.next.inj (he.symm.trans h)
  iterate 5 · exact .inl rfl
  · cases s.dropReason b with
    | some r => exact .inr (.inl ⟨r, rfl⟩)
    | none => exact .inr (.inr ⟨_, rfl⟩)

/-! #### What the decoder sees -/

/-- Two states that differ at most in the identifier, the operations waiting, and the events that are not the
decoder's. -/
def SameDecoder (s u : State) : Prop :=
  u = { s with frameId := u.frameId, opIn := u.opIn, events := u.events } ∧
    u.events.filter Event.fromDecoder = s.events.filter Event.fromDecoder

theorem SameDecoder.refl (s : State) : SameDecoder s s := ⟨rfl, rfl⟩

theorem SameDecoder.decoderPart_eq {s u : State} (h : SameDecoder s u) : u.decoderPart = s.decoderPart := by
  rw [h.1]
  rfl

theorem sameDecoder_iff {s u : State} : SameDecoder s u ↔
    ∃ fid ops es, u = { s with frameId := fid, opIn := ops, events := es } ∧
      es.filter Event.fromDecoder = s.events.filter Event.fromDecoder := by
  constructor
  · rintro ⟨hu, hes⟩
    exact ⟨_, _, _, hu, hes⟩
  · rintro ⟨fid, ops, es, rfl, hes⟩
    exact ⟨rfl, hes⟩

/-- An encoder operation changes nothing the decoder sees (20_memory.md R53). -/
theorem SameDecoder.exec_encoder {i : Instr} {s u s' : State} (hi : i.unit = .encoder) (h : SameDecoder s u)
    (he : exec i s = .next s') : SameDecoder s' u := by
  obtain ⟨fid, ops, es, rfl, hes⟩ := sameDecoder_iff.1 h
  rcases exec_encoder_cases hi s with ⟨e, hs⟩ | ⟨ty, content, -, hs⟩ <;> cases hs.symm.trans he <;>
    exact ⟨rfl, hes.trans (filter_events_append_of_false _ rfl).symm⟩

/-- The action selected reads, and does, nothing outside what the decoder sees. -/
theorem SameDecoder.exec_select {b : Byte} {s u s' : State} (h : SameDecoder s u)
    (he : exec (s.select b) s = .next s') : ∃ u', exec (s.select b) u = .next u' ∧ SameDecoder s' u' := by
  obtain ⟨fid, ops, es, rfl, hes⟩ := sameDecoder_iff.1 h
  have selected {i : Instr} (hi : s.select b = i) :
      State.select { s with frameId := fid, opIn := ops, events := es } b = i := hi
  rcases s.select_cases b with hi | hi | hi | hi | hi | hi <;> rw [hi] at he ⊢
  iterate 4
    · obtain ⟨-, ⟨⟩⟩ := State.ifSelected_next.1 he
      exact ⟨_, State.ifSelected_of_eq _ _ (selected hi), rfl, hes⟩
  · cases (execData_of_select hi).symm.trans he
    exact ⟨_, execData_of_select (selected hi), rfl, hes⟩
  · cases (execChecksum_of_select hi).symm.trans he
    refine ⟨_, execChecksum_of_select (selected hi), ?_⟩
    have hreason : State.dropReason { s with frameId := fid, opIn := ops, events := es } b = s.dropReason b := rfl
    rw [hreason]
    cases s.dropReason b <;> exact ⟨rfl, filter_events_append_congr _ hes⟩

/-- Every operation but the encoder's does the same to what the decoder sees. -/
theorem SameDecoder.exec_other {i : Instr} {s u s' : State} (hi : i.unit ≠ .encoder) (h : SameDecoder s u)
    (he : exec i s = .next s') : ∃ u', exec i u = .next u' ∧ SameDecoder s' u' := by
  cases hu : i.unit with
  | decoder =>
    obtain ⟨b, hb, hrx⟩ := exec_decoder_next hu he
    obtain ⟨u', hu', hsame⟩ := h.exec_select ((execRxByte_of_select rfl).symm.trans hrx)
    refine ⟨u', ?_, hsame⟩
    rcases hb with rfl | rfl
    · have hsel : u.select b = s.select b := by rw [h.1]; rfl
      exact (execRxByte_of_select hsel).trans hu'
    · exact hu'
  | encoder => exact absurd hu hi
  | both =>
    obtain ⟨fid, ops, es, rfl, hes⟩ := sameDecoder_iff.1 h
    cases i with
    | status =>
      cases he
      exact ⟨_, rfl, rfl, (filter_events_append_of_false _ rfl).trans
        (hes.trans (filter_events_append_of_false _ rfl).symm)⟩
    | reset => cases he; exact ⟨_, rfl, rfl, hes⟩
    | _ => cases hu

/-! #### What the encoder sees -/

/-- Two states with the same identifier and the same events on the encoder's channels. -/
def SameEncoder (s u : State) : Prop :=
  u.frameId = s.frameId ∧ u.events.filter Event.fromEncoder = s.events.filter Event.fromEncoder

theorem SameEncoder.refl (s : State) : SameEncoder s s := ⟨rfl, rfl⟩

/-- A decoder operation changes nothing the encoder sees (20_memory.md R53). -/
theorem SameEncoder.exec_decoder {i : Instr} {s u s' : State} (hi : i.unit = .decoder) (h : SameEncoder s u)
    (he : exec i s = .next s') : SameEncoder s' u := by
  obtain ⟨b, -, hrx⟩ := exec_decoder_next hi he
  obtain ⟨hfid, hes⟩ := h
  refine ⟨hfid.trans (execRxByte_frame hrx).1.symm, hes.trans ?_⟩
  rcases execRxByte_next_events hrx with hev | ⟨r, hev⟩ | ⟨d, hev⟩ 
  · rw [hev]
  · rw [hev, filter_events_append_of_false _ rfl]
  · rw [hev, filter_events_append_of_false _ rfl]

/-- Every operation but the decoder's does the same to what the encoder sees. -/
theorem SameEncoder.exec_other {i : Instr} {s u s' : State} (hi : i.unit ≠ .decoder) (h : SameEncoder s u)
    (he : exec i s = .next s') : ∃ u', exec i u = .next u' ∧ SameEncoder s' u' := by
  obtain ⟨hfid, hes⟩ := h
  cases hu : i.unit with
  | decoder => exact absurd hu hi
  | encoder =>
    rcases exec_encoder_uniform hu with ⟨e, hs⟩ | ⟨ty, content, -, hs⟩ <;> cases (hs s).symm.trans he
    · exact ⟨_, hs u, hfid, filter_events_append_congr _ hes⟩
    · have hbytes : frameBytes u.cfg ty u.frameId content = frameBytes s.cfg ty s.frameId content := by
        rw [hfid, frameBytes_congr]
      refine ⟨_, hs u, congrArg nextFid hfid, ?_⟩
      rw [hbytes]
      exact filter_events_append_congr _ hes
  | both =>
    cases i with
    | status =>
      cases he
      exact ⟨_, rfl, hfid, (filter_events_append_of_false _ rfl).trans
        (hes.trans (filter_events_append_of_false _ rfl).symm)⟩
    | reset => cases he; exact ⟨_, rfl, rfl, hes⟩
    | _ => cases hu

/-- Settles O39: the run is simulated by each filtered run, for what the unit kept there sees. Decoder actions in the run
would not break it, so the premise of host operations is not used. -/
theorem unitsAreIndependent : Obligations.UnitsAreIndependent := by
  intro is s t _ h
  constructor
  · obtain ⟨u, hu, hsame⟩ := runOps_filter_simulates (keep := fun i => i.unit != .encoder)
      (fun hk hR he => hR.exec_other (by simpa using hk) he)
      (fun hk hR he => hR.exec_encoder (by simpa using hk) he) is (SameDecoder.refl s) h
    exact ⟨u, hu, hsame.decoderPart_eq, hsame.2⟩
  · exact runOps_filter_simulates (keep := fun i => i.unit != .decoder)
      (fun hk hR he => hR.exec_other (by simpa using hk) he)
      (fun hk hR he => hR.exec_decoder (by simpa using hk) he) is (SameEncoder.refl s) h

/-! ### The length field -/

theorem lo_byte_mul_256 (b : Byte) : lo (b.zeroExtend 16 * 256) = 0 := by
  apply BitVec.eq_of_toNat_eq
  have h256 : (256 : U16).toNat = 256 := rfl
  simp only [lo_toNat, BitVec.toNat_mul, BitVec.truncate_eq_setWidth, BitVec.toNat_setWidth, h256]
  have h0 : (0 : Byte).toNat = 0 := rfl
  omega

/-- The length field after both of its bytes (20_memory.md R43). -/
theorem lengthField_toNat (b1 b2 : Byte) :
    (b1.zeroExtend 16 * 256 + b2.zeroExtend 16 : U16).toNat = b1.toNat * 256 + b2.toNat := by
  have hlo := lo_byte_mul_256 b1
  rw [← hi_lo_toNat, hi_add_byte hlo, lo_add_byte hlo, hi_byte_mul_256]

/-- RX_BYTE of the first length byte is LEN_HI (40_decoder.md R103). -/
theorem execRxByte_lenHi {s : State} (b : Byte) (hp : s.phase = .lengthPending) (hl : s.lcount = 0) :
    execRxByte b s = .next { s with dlen := b.zeroExtend 16 * 256, lcount := 1 } := by
  have hsel : s.select b = .lenHi b := by simp [State.select, selectAction, hp, hl]
  exact (execRxByte_of_select hsel).trans (State.ifSelected_of_eq _ _ hsel)

/-- RX_BYTE of the second length byte is LEN_LO (40_decoder.md R104). -/
theorem execRxByte_lenLo {s : State} (b : Byte) (hp : s.phase = .lengthPending) (hl : s.lcount ≠ 0) :
    execRxByte b s = .next
      { s with dlen := s.dlen + b.zeroExtend 16, lcount := 0, dcount := 0, dsum := 0, phase := .payloadPending } := by
  have hsel : s.select b = .lenLo b := by
    simp only [State.select, selectAction, hp]
    exact if_neg hl
  exact (execRxByte_of_select hsel).trans (State.ifSelected_of_eq _ _ hsel)

/-- Settles O20: LEN_HI and then LEN_LO. -/
theorem lengthFieldIsBigEndian : Obligations.LengthFieldIsBigEndian := by
  intro s b1 b2 hp hl
  have hhi : exec (.rxByte b1) s = .next _ := execRxByte_lenHi b1 hp hl
  have hlo : exec (.rxByte b2) { s with dlen := b1.zeroExtend 16 * 256, lcount := 1 } = .next _ :=
    execRxByte_lenLo b2 hp (by decide : (1 : BitVec 1) ≠ 0)
  exact ⟨_, (runOps_cons_next _ hhi).trans (runOps_cons_next _ hlo), rfl, lengthField_toNat b1 b2, rfl⟩

/-! ### Writes to the frame buffer -/

/-- An instruction that has a store index does DATA, where it is selected, and the index is `dcount`, inside the buffer
(20_memory.md R41). -/
theorem storeIndex_eq_some {s : State} {i : Instr} {a : Nat} (h : storeIndex s i = some a) :
    ∃ b, s.select b = .data b ∧ exec i s = execData b s ∧ s.dcount.toNat < s.cfg.nBuf ∧ a = s.dcount.toNat := by
  cases i with
  | rxByte b =>
    obtain ⟨⟨hsel, hroom⟩, ha⟩ := Option.ite_none_right_eq_some.1 h
    exact ⟨b, hsel, execRxByte_of_select hsel, hroom, (Option.some.inj ha).symm⟩
  | data b =>
    obtain ⟨⟨hsel, hroom⟩, ha⟩ := Option.ite_none_right_eq_some.1 h
    exact ⟨b, hsel, rfl, hroom, (Option.some.inj ha).symm⟩
  | _ => cases h

/-- The byte at an instruction's store index is then one it wrote. -/
theorem exec_next_read_storeIndex {i : Instr} {s t : State} {a : Nat} (h : exec i s = .next t)
    (ha : storeIndex s i = some a) : ∃ b, t.dbuf.read a = some b := by
  obtain ⟨b, hsel, hexec, hroom, rfl⟩ := storeIndex_eq_some ha
  cases (hexec.trans (execData_of_select hsel)).symm.trans h
  exact ⟨b, by simp only [if_pos hroom, Memory.read_write, if_true]⟩

/-- Settles O37: the frame unit by unit, and the write by `exec_next_read_storeIndex`. -/
theorem onlyDataWritesTheBuffer : Obligations.OnlyDataWritesTheBuffer := by
  intro i s t h
  have hframe : t.opIn = s.opIn ∧ ∀ a, storeIndex s i ≠ some a → t.dbuf.read a = s.dbuf.read a := by
    cases hu : i.unit with
    | decoder =>
      obtain ⟨-, -, hops, hread⟩ := decoderOperationsFrame i s t hu h
      exact ⟨hops, hread⟩
    | encoder =>
      obtain ⟨ht, -, hread⟩ := encoderOperationsFrame i s t hu h
      exact ⟨by rw [ht], fun a _ => hread a⟩
    | both =>
      cases i with
      | status | reset => cases h; exact ⟨rfl, fun _ _ => rfl⟩
      | _ => cases hu
  obtain ⟨hops, hread⟩ := hframe
  exact ⟨exec_next_cfg h, hops, hread, fun _ ha => exec_next_read_storeIndex h ha⟩

/-! ### No access outside the frame buffer -/

/-- A decoder action is a result under the guard that the table of R73 selects it. -/
theorem exec_action_eq_ifSelected {i : Instr} (hi : i.isHostOp = false) (s : State) :
    ∃ b m r, exec i s = s.ifSelected b i m r := by
  cases i with
  | sync | discard | lenHi | lenLo | data | checksum => exact ⟨_, _, _, rfl⟩
  | _ => cases hi

/-- No instruction faults: a host operation completes, and a decoder action completes where it is selected and is refused
elsewhere (20_memory.md R40 to R42). -/
theorem exec_ne_fault (i : Instr) (s : State) (f : Fault) : exec i s ≠ .fault f := by
  cases hi : i.isHostOp with
  | true =>
    obtain ⟨t, ht⟩ := exec_hostOp_anyStream hi s
    have hnext : exec i s = .next _ := ht s.opIn
    simp [hnext]
  | false =>
    obtain ⟨b, m, r, hexec⟩ := exec_action_eq_ifSelected hi s
    by_cases hsel : s.select b = i
    · obtain ⟨t, ht⟩ := exec_select_anyStream s b
      have hnext : exec i s = .next _ := hsel ▸ ht s.opIn
      simp [hnext]
    · simp [hexec, State.ifSelected, hsel]

/-- Settles O9: a step that fetches an operation runs it, and any other step does not fault. -/
theorem stepNeverFaults : Obligations.StepNeverFaults := by
  intro s f
  unfold step
  split
  · nofun
  · exact exec_ne_fault _ _ f
  · nofun

end Sys2Proof.Machine
end

section
/-! SUPPORT. The two formats of 30_encoding.md: the serial form of host operations, read and written without loss, and
the action table, whose rows select one action each. -/

namespace Sys2Proof

/-! ### Host operations (R70) -/

/-- A first byte with no reserved bits is its 4-bit code (log 2). -/
theorem firstByte_eq_code {op : Byte} {n : Nat} (hreserved : op.extractLsb' 4 4 = 0)
    (hcode : (op.extractLsb' 0 4).toNat = n) : op = BitVec.ofNat 8 n := by
  have hhigh : op.toNat / 16 % 16 = 0 := by
    simpa [Nat.shiftRight_eq_div_pow] using congrArg BitVec.toNat hreserved
  have hlow : op.toNat % 16 = n := by simpa using hcode
  apply BitVec.eq_of_toNat_eq
  rw [BitVec.toNat_ofNat]
  omega

/-- An operand read first was accepted, so the stream is its encoding and the rest, from which the reading went on. -/
theorem decode_bind_sound {α β : Type} {read : List Byte → Except DecodeError (α × List Byte)}
    {write : α → List Byte → List Byte} (hsound : ∀ {bs rest a}, read bs = .ok (a, rest) → write a rest = bs)
    {bs : List Byte} {f : α × List Byte → Except DecodeError β} {y : β} (h : (read bs >>= f) = .ok y) :
    ∃ a rest, write a rest = bs ∧ f (a, rest) = .ok y := by
  obtain ⟨⟨a, rest⟩, hread, hf⟩ := decode_bind_ok h
  exact ⟨a, rest, hsound hread, hf⟩

/-- What decodes is a host operation whose encoding is the bytes taken: code by code, operand by operand. -/
theorem decode_sound {bs rest : List Byte} {i : Instr} (h : decode bs = .ok (i, rest)) :
    i.isHostOp = true ∧ encode i ++ rest = bs := by
  cases bs with
  | nil => cases h
  | cons op bs =>
    rw [decode] at h
    split at h
    · cases h
    · next hreserved =>
      have hop {n : Nat} := firstByte_eq_code (n := n) (not_not.1 hreserved)
      split at h
      · next hcode =>
        obtain ⟨b, _, rfl, ⟨⟩⟩ := decode_bind_sound decodeByte_sound h
        exact ⟨rfl, by simp [encode, hop hcode]⟩
      · next hcode =>
        obtain ⟨ty, _, rfl, hty⟩ := decode_bind_sound decodeByte_sound h
        obtain ⟨content, _, rfl, ⟨⟩⟩ := decode_bind_sound decodeSeq_sound hty
        exact ⟨rfl, by simp [encode, hop hcode]⟩
      · next hcode =>
        obtain ⟨cmd, _, rfl, hcmd⟩ := decode_bind_sound decodeCmd_sound h
        obtain ⟨params, _, rfl, ⟨⟩⟩ := decode_bind_sound decodeOptSeq_sound hcmd
        exact ⟨rfl, by simp [encode, hop hcode]⟩
      · next hcode =>
        obtain ⟨dest64, _, rfl, h64⟩ := decode_bind_sound decodeSeq_sound h
        obtain ⟨dest16, _, rfl, h16⟩ := decode_bind_sound decodeSeq_sound h64
        obtain ⟨data, _, rfl, hdata⟩ := decode_bind_sound decodeSeq_sound h16
        obtain ⟨options, _, rfl, hoptions⟩ := decode_bind_sound decodeOptByte_sound hdata
        obtain ⟨radius, _, rfl, ⟨⟩⟩ := decode_bind_sound decodeOptByte_sound hoptions
        exact ⟨rfl, by simp [encode, hop hcode]⟩
      · next hcode =>
        obtain ⟨dest64, _, rfl, h64⟩ := decode_bind_sound decodeSeq_sound h
        obtain ⟨dest16, _, rfl, h16⟩ := decode_bind_sound decodeSeq_sound h64
        obtain ⟨cmd, _, rfl, hcmd⟩ := decode_bind_sound decodeCmd_sound h16
        obtain ⟨params, _, rfl, hparams⟩ := decode_bind_sound decodeOptSeq_sound hcmd
        obtain ⟨options, _, rfl, ⟨⟩⟩ := decode_bind_sound decodeOptByte_sound hparams
        exact ⟨rfl, by simp [encode, hop hcode]⟩
      · next hcode =>
        obtain ⟨dest64, _, rfl, h64⟩ := decode_bind_sound decodeSeq_sound h
        obtain ⟨dest16, _, rfl, h16⟩ := decode_bind_sound decodeSeq_sound h64
        obtain ⟨route, _, rfl, ⟨⟩⟩ := decode_bind_sound decodeSeqs_sound h16
        exact ⟨rfl, by simp [encode, hop hcode]⟩
      · next hcode =>
        cases h
        exact ⟨rfl, by simp [encode, hop hcode]⟩
      · next hcode =>
        cases h
        exact ⟨rfl, by simp [encode, hop hcode]⟩
      · cases h

/-- Every operand of a host operation is legal (30_encoding.md R70). -/
theorem Instr.wf_of_isHostOp {i : Instr} (hi : i.isHostOp = true) : i.wf = true := by
  cases i with
  | sync b | discard b | lenHi b | lenLo b | data b | checksum c => cases hi
  | _ => rfl

/-- Settles O10: `decode_encode_append`, by cases of the operation. -/
theorem decodeOfEncode : Obligations.DecodeOfEncode :=
  fun _ rest hi => decode_encode_append hi rest

/-- Settles O11: `decode_sound`, and no host operation has an illegal operand. -/
theorem encodeOfDecode : Obligations.EncodeOfDecode := by
  intro bs i rest h
  obtain ⟨hhost, hbytes⟩ := decode_sound h
  exact ⟨hhost, Instr.wf_of_isHostOp hhost, hbytes⟩

end Sys2Proof

namespace Sys2Proof.Machine

/-! ### The action table (R73) -/

theorem State.select_lenHi {s : State} {b : Byte} (hp : s.phase = .lengthPending) (hl : s.lcount = 0) :
    s.select b = .lenHi b := by
  simp only [State.select, selectAction, hp]
  exact if_pos hl

theorem State.select_lenLo {s : State} {b : Byte} (hp : s.phase = .lengthPending) (hl : s.lcount ≠ 0) :
    s.select b = .lenLo b := by
  simp only [State.select, selectAction, hp]
  exact if_neg hl

theorem State.select_data {s : State} {b : Byte} (hp : s.phase = .payloadPending) (hd : s.dcount < s.dlen) :
    s.select b = .data b := by
  simp only [State.select, selectAction, hp]
  exact if_pos hd

theorem State.select_checksum {s : State} {b : Byte} (hp : s.phase = .payloadPending) (hd : ¬s.dcount < s.dlen) :
    s.select b = .checksum b := by
  simp only [State.select, selectAction, hp]
  exact if_neg hd

/-- `lcount` is one bit wide, so rows 3 and 4 of the table exclude each other and leave no case (10_state.md R23). -/
theorem lcount_eq_one_iff (n : BitVec 1) : n = 1 ↔ n ≠ 0 := by
  revert n
  decide

/-- One row's condition holds, whatever the byte: in each phase, one of that phase's two. -/
theorem count_actionConditions {s : State} (b : Byte) (hle : s.dcount ≤ s.dlen) :
    (actionConditions s b).count true = 1 := by
  cases hp : s.phase with
  | idle => by_cases hb : b = 0x7E <;> simp only [actionConditions, hp, ne_eq, hb] <;> rfl
  | lengthPending =>
    by_cases hl : s.lcount = 0 <;> simp only [actionConditions, hp, lcount_eq_one_iff, ne_eq, hl] <;> rfl
  | payloadPending =>
    have hlast : s.dcount = s.dlen ↔ ¬s.dcount < s.dlen := by bv_omega
    by_cases hd : s.dcount < s.dlen <;> simp [actionConditions, hp, hlast, hd]

/-- The selected action is a decoder action. -/
theorem State.isHostOp_select (s : State) (b : Byte) : (s.select b).isHostOp = false := by
  rcases s.select_cases b with h | h | h | h | h | h <;> rw [h] <;> rfl

/-- The selected action's word is the inbound byte. -/
theorem State.encode_select (s : State) (b : Byte) : encode (s.select b) = [b] := by
  rcases s.select_cases b with h | h | h | h | h | h <;> rw [h] <;> rfl

/-- The selected action is well formed: SYNC is selected for the start delimiter and DISCARD for another byte. -/
theorem State.wf_select (s : State) (b : Byte) : (s.select b).wf = true := by
  unfold State.select selectAction
  cases s.phase <;> dsimp only <;> split <;> simp_all [Instr.wf]

/-- Every well-formed action is selected by its word in some state: the phase of its row, with the row's condition. -/
theorem exists_select_of_wf {i : Instr} (hi : i.isHostOp = false) (hwf : i.wf = true) :
    ∃ (s : State) (b : Byte), encode i = [b] ∧ s.select b = i := by
  cases i with
  | sync b => exact ⟨State.reset, b, rfl, State.select_idle_sync rfl (by simpa [Instr.wf] using hwf)⟩
  | discard b => exact ⟨State.reset, b, rfl, State.select_idle_other rfl (by simpa [Instr.wf] using hwf)⟩
  | lenHi b => exact ⟨{ State.reset with phase := .lengthPending }, b, rfl, State.select_lenHi rfl rfl⟩
  | lenLo b =>
    exact ⟨{ State.reset with phase := .lengthPending, lcount := 1 }, b, rfl,
      State.select_lenLo rfl (by decide : (1 : BitVec 1) ≠ 0)⟩
  | data b =>
    exact ⟨{ State.reset with phase := .payloadPending, dlen := 1 }, b, rfl,
      State.select_data rfl (by decide : (0 : U16) < 1)⟩
  | checksum c =>
    exact ⟨{ State.reset with phase := .payloadPending }, c, rfl,
      State.select_checksum rfl (by decide : ¬(0 : U16) < 0)⟩
  | _ => cases hi

/-- The selected action is done: it answers a next state. -/
theorem exec_select_next (s : State) (b : Byte) : ∃ t, exec (s.select b) s = .next t := by
  obtain ⟨t, ht⟩ := exec_select_anyStream s b
  exact ⟨_, ht s.opIn⟩

/-- Settles O12: one selection lemma per row, and `count_actionConditions`. -/
theorem actionTableSelectsOneRow : Obligations.ActionTableSelectsOneRow := by
  intro s b
  refine ⟨State.select_idle_sync, State.select_idle_other, State.select_lenHi, fun hp hl => ?_, State.select_data,
    fun hp hd => ?_, count_actionConditions b⟩
  · exact State.select_lenLo hp ((lcount_eq_one_iff _).1 hl)
  · exact State.select_checksum hp (by simp [hd])

/-- Settles O13: what the selected action is, and a selecting state for each action. -/
theorem actionWordsRoundTrip : Obligations.ActionWordsRoundTrip :=
  ⟨fun s b => ⟨s.isHostOp_select b, s.wf_select b, s.encode_select b⟩, fun _ => exists_select_of_wf⟩

/-- Settles O26: an action done was selected by its own word, and the selected action is always done. -/
theorem actionsDoneOnlyWhereSelected : Obligations.ActionsDoneOnlyWhereSelected := by
  intro i b s hi hword
  constructor
  · rintro ⟨t, ht⟩
    obtain ⟨b', hword', hsel⟩ := exec_action_next hi ht
    obtain rfl : b = b' := List.singleton_inj.1 (hword.symm.trans hword')
    exact hsel
  · rintro rfl
    exact exec_select_next s b

/-- Settles O14: each word is the encoding of its operation, and the two bytes are rows 1 and 2 after reset. -/
theorem writtenWordsDecode : Obligations.WrittenWordsDecode :=
  ⟨decode_encode_append (i := .rxByte 0x7E) rfl [],
    decode_encode_append (i := .buildFrame 0x08 [0x43, 0x48]) rfl [],
    decode_encode_append (i := .atCommand ⟨0x43, 0x48⟩ none) rfl [],
    decode_encode_append (i := .createSourceRoute [] [] [[0xAA, 0xBB]]) rfl [],
    decode_encode_append (i := .status) rfl [], decode_encode_append (i := .reset) rfl [],
    State.select_idle_sync (s := State.reset) rfl rfl, State.select_idle_other (s := State.reset) rfl (by decide)⟩

end Sys2Proof.Machine
end

section
/-! SUPPORT. The streaming decoder of 40_decoder.md: the invariant is kept, each action does what its rule says, and runs
of bytes: garbage, a frame's header, its data, and whole frames. -/

namespace Sys2Proof.Machine

/-! ### The invariant (R111) -/

/-- The invariant does not read the waiting operations and the events, and reads the identifier only for being nonzero
(10_state.md R27). -/
theorem State.Inv.outside {s : State} (hinv : s.Inv) {fid : Byte} (hfid : fid ≠ 0) (ops : List Byte) (es : List Event) :
    State.Inv { s with frameId := fid, opIn := ops, events := es } where
  cfgLegal := hinv.cfgLegal
  frameIdNonzero := hfid
  bufCanonical := hinv.bufCanonical
  bufInRange := hinv.bufInRange
  whenIdle := hinv.whenIdle
  whenLength := hinv.whenLength
  whenPayload := hinv.whenPayload
  payloadStored := hinv.payloadStored
  payloadSum := hinv.payloadSum

/-- Back in IDLE the framing registers are 0, whatever is counted and emitted (R107, R160). -/
theorem State.Inv.toIdle {s : State} (hinv : s.Inv) {fid : Byte} (hfid : fid ≠ 0) (count : BitVec cntWidth)
    (es : List Event) : State.Inv { s.toIdle with dropCount := count, frameId := fid, events := es } where
  cfgLegal := hinv.cfgLegal
  frameIdNonzero := hfid
  bufCanonical := hinv.bufCanonical
  bufInRange := hinv.bufInRange
  whenIdle _ := ⟨rfl, rfl, rfl, rfl⟩
  whenLength := nofun
  whenPayload := nofun
  payloadStored := nofun
  payloadSum := nofun

theorem State.Inv.sync {s : State} (hinv : s.Inv) (hp : s.phase = .idle) :
    State.Inv { s with phase := .lengthPending, lcount := 0 } where
  cfgLegal := hinv.cfgLegal
  frameIdNonzero := hinv.frameIdNonzero
  bufCanonical := hinv.bufCanonical
  bufInRange := hinv.bufInRange
  whenIdle := nofun
  whenLength _ := by
    obtain ⟨-, hlen, hcount, hsum⟩ := hinv.whenIdle hp
    refine ⟨hcount, hsum, fun _ => hlen, ?_⟩
    simp only [hlen]
    rfl
  whenPayload := nofun
  payloadStored := nofun
  payloadSum := nofun

theorem State.Inv.lenHi {s : State} (hinv : s.Inv) (hp : s.phase = .lengthPending) (b : Byte) :
    State.Inv { s with dlen := b.zeroExtend 16 * 256, lcount := 1 } where
  cfgLegal := hinv.cfgLegal
  frameIdNonzero := hinv.frameIdNonzero
  bufCanonical := hinv.bufCanonical
  bufInRange := hinv.bufInRange
  whenIdle h := nomatch hp.symm.trans h
  whenLength _ := by
    obtain ⟨hcount, hsum, -, -⟩ := hinv.whenLength hp
    exact ⟨hcount, hsum, fun h => absurd h (by decide : (1 : BitVec 1) ≠ 0), lo_byte_mul_256 b⟩
  whenPayload h := nomatch hp.symm.trans h
  payloadStored h := nomatch hp.symm.trans h
  payloadSum h := nomatch hp.symm.trans h

/-- What LEN_LO makes of a state: the payload of a frame of length `len` is open, with nothing counted (R104). -/
def State.openPayload (s : State) (len : U16) : State :=
  { s with dlen := len, lcount := 0, dcount := 0, dsum := 0, phase := .payloadPending }

section
variable (s : State) (len : U16)

@[simp] theorem State.openPayload_cfg : (s.openPayload len).cfg = s.cfg := rfl
@[simp] theorem State.openPayload_phase : (s.openPayload len).phase = .payloadPending := rfl
@[simp] theorem State.openPayload_dlen : (s.openPayload len).dlen = len := rfl
@[simp] theorem State.openPayload_dcount : (s.openPayload len).dcount = 0 := rfl
@[simp] theorem State.openPayload_dsum : (s.openPayload len).dsum = 0 := rfl

end

theorem State.Inv.openPayload {s : State} (hinv : s.Inv) (len : U16) : (s.openPayload len).Inv where
  cfgLegal := hinv.cfgLegal
  frameIdNonzero := hinv.frameIdNonzero
  bufCanonical := hinv.bufCanonical
  bufInRange := hinv.bufInRange
  whenIdle := nofun
  whenLength := nofun
  whenPayload _ := ⟨rfl, Nat.zero_le _⟩
  payloadStored _ i hi := absurd hi (Nat.not_lt_zero i)
  payloadSum _ _ := rfl

/-- The sum mod 256 of two sequences of bytes, one after the other (R106). -/
theorem ofNat_sumBytes_append (l r : List Byte) :
    BitVec.ofNat 8 (sumBytes (l ++ r)) = BitVec.ofNat 8 (sumBytes l) + BitVec.ofNat 8 (sumBytes r) := by
  rw [sumBytes_append, BitVec.ofNat_add]

theorem ofNat_sumBytes_singleton (b : Byte) : BitVec.ofNat 8 (sumBytes [b]) = b := by
  simp

/-- What DATA makes of a state: the byte stored where there is room, summed and counted (R106). -/
def State.takeData (s : State) (b : Byte) : State :=
  { s with
    dbuf := if s.dcount.toNat < s.cfg.nBuf then s.dbuf.write s.dcount.toNat b else s.dbuf
    dsum := s.dsum + b
    dcount := s.dcount + 1 }

section
variable (s : State) (b : Byte)

@[simp] theorem State.takeData_cfg : (s.takeData b).cfg = s.cfg := rfl
@[simp] theorem State.takeData_dlen : (s.takeData b).dlen = s.dlen := rfl
@[simp] theorem State.takeData_dcount : (s.takeData b).dcount = s.dcount + 1 := rfl
@[simp] theorem State.takeData_dsum : (s.takeData b).dsum = s.dsum + b := rfl
@[simp] theorem State.takeData_dbuf : (s.takeData b).dbuf =
    if s.dcount.toNat < s.cfg.nBuf then s.dbuf.write s.dcount.toNat b else s.dbuf := rfl

end

/-- While frame data bytes are missing, the count does not wrap. -/
theorem State.takeData_dcount_toNat {s : State} (hd : s.dcount < s.dlen) (b : Byte) :
    (s.takeData b).dcount.toNat = s.dcount.toNat + 1 := by
  rw [State.takeData_dcount]
  bv_omega

/-- With room in the buffer, the frame data stored are those before and the byte (20_memory.md R41). -/
theorem State.stored_takeData {s : State} (hroom : s.dcount.toNat < s.cfg.nBuf) (b : Byte) :
    (s.takeData b).stored (s.dcount.toNat + 1) = s.stored s.dcount.toNat ++ [b] := by
  rw [State.takeData, if_pos hroom]
  exact s.stored_write_succ s.dcount.toNat b

theorem State.Inv.takeData {s : State} (hinv : s.Inv) (hp : s.phase = .payloadPending) (hd : s.dcount < s.dlen)
    (b : Byte) : (s.takeData b).Inv where
  cfgLegal := hinv.cfgLegal
  frameIdNonzero := hinv.frameIdNonzero
  bufCanonical := by
    rw [State.takeData_dbuf]
    split
    · exact Memory.wf_write _ _ hinv.bufCanonical
    · exact hinv.bufCanonical
  bufInRange c hc := by
    rw [State.takeData_dbuf] at hc
    split at hc
    · next hroom =>
      rcases Memory.mem_write hc with rfl | hc
      · exact hroom
      · exact hinv.bufInRange c hc
    · exact hinv.bufInRange c hc
  whenIdle h := nomatch hp.symm.trans h
  whenLength h := nomatch hp.symm.trans h
  whenPayload _ := by
    obtain ⟨hlcount, -⟩ := hinv.whenPayload hp
    rw [State.takeData_dcount_toNat hd]
    exact ⟨hlcount, hd⟩
  payloadStored _ i hi hbuf := by
    rw [State.takeData_dcount_toNat hd] at hi
    rw [State.takeData_cfg] at hbuf
    rw [State.takeData_dbuf, Memory.read_store _ _ _ hbuf]
    split
    · rfl
    · exact hinv.payloadStored hp i (by omega) hbuf
  payloadSum _ hfit := by
    rw [State.takeData_dcount_toNat hd] at hfit ⊢
    rw [State.stored_takeData hfit, ofNat_sumBytes_append, ofNat_sumBytes_singleton,
      ← hinv.payloadSum hp (Nat.le_of_succ_le hfit), State.takeData_dsum]

/-- RX_BYTE keeps the invariant: each of its six cases does. -/
theorem execRxByte_keeps_inv {b : Byte} {s t : State} (hinv : s.Inv) (h : execRxByte b s = .next t) : t.Inv := by
  rcases execRxByte_cases b s with ⟨hp, -, he⟩ | ⟨-, -, he⟩ | ⟨hp, -, he⟩ | ⟨-, -, he⟩ | ⟨hp, hd, he⟩ | ⟨-, -, he⟩ <;>
    obtain rfl := Host.Outcome.next.inj (he.symm.trans h)
  · exact hinv.sync hp
  · exact hinv
  · exact hinv.lenHi hp b
  · exact hinv.openPayload _
  · exact hinv.takeData hp hd b
  · cases s.dropReason b with
    | some r => exact hinv.toIdle hinv.frameIdNonzero _ _
    | none => exact hinv.toIdle hinv.frameIdNonzero _ _

/-- Every instruction keeps the invariant. -/
theorem exec_keeps_inv {i : Instr} {s t : State} (hinv : s.Inv) (h : exec i s = .next t) : t.Inv := by
  cases hu : i.unit with
  | decoder =>
    obtain ⟨b, -, hb⟩ := exec_decoder_next hu h
    exact execRxByte_keeps_inv hinv hb
  | encoder =>
    rcases exec_encoder_cases hu s with ⟨e, he⟩ | ⟨ty, content, -, he⟩ <;> cases he.symm.trans h
    · exact hinv.outside hinv.frameIdNonzero _ _
    · exact hinv.outside (nextFid_ne_zero _) _ _
  | both =>
    cases i with
    | status => cases h; exact hinv.outside hinv.frameIdNonzero _ _
    | reset => cases h; exact hinv.toIdle (by decide : (1 : Byte) ≠ 0) _ _
    | _ => cases hu

/-- A run keeps the invariant. -/
theorem runOps_keeps_inv {is : List Instr} {s t : State} (hinv : s.Inv) (h : runOps is s = .next t) : t.Inv := by
  induction is generalizing s with
  | nil => cases h; exact hinv
  | cons i is ih =>
    obtain ⟨u, he, hrun⟩ := runOps_cons_inv h
    exact ih (exec_keeps_inv hinv he) hrun

/-- Settles O3: a step does nothing, or one instruction with the rest of the stream. -/
theorem stepKeepsInvariant : Obligations.StepKeepsInvariant := by
  intro s t hinv h
  rcases step_next_cases h with ⟨-, rfl⟩ | ⟨i, rest, -, he⟩
  · exact hinv
  · exact exec_keeps_inv (hinv.outside hinv.frameIdNonzero rest s.events) he

/-- Settles O2: in IDLE with the framing registers 0, an empty buffer, and the defaults. -/
theorem resetMeetsInvariant : Obligations.ResetMeetsInvariant where
  cfgLegal := rfl
  frameIdNonzero := by decide
  bufCanonical := State.reset_dbuf_wf
  bufInRange := nofun
  whenIdle _ := ⟨rfl, rfl, rfl, rfl⟩
  whenLength := nofun
  whenPayload := nofun
  payloadStored := nofun
  payloadSum := nofun

/-! ### Each action (R100 to R107) -/

theorem exec_rxByte_eq_exec_select (s : State) (b : Byte) : exec (.rxByte b) s = exec (s.select b) s :=
  execRxByte_of_select rfl

/-- Settles O15: in each phase, the selected action is that of the first test that holds. -/
theorem rxByteDoesTheSelectedAction : Obligations.RxByteDoesTheSelectedAction := by
  intro s b
  have hselect := exec_rxByte_eq_exec_select s b
  refine ⟨?tests, rfl, hselect, hselect ▸ exec_select_next s b⟩
  rw [hselect]
  cases hp : s.phase with
  | idle =>
    by_cases hb : b = 0x7E
    · rw [State.select_idle_sync hp hb, if_pos ⟨rfl, hb⟩]
    · rw [State.select_idle_other hp hb, if_neg fun h => hb h.2, if_pos rfl]
  | lengthPending =>
    rw [if_neg nofun, if_neg nofun]
    by_cases hl : s.lcount = 0
    · rw [State.select_lenHi hp hl, if_pos ⟨rfl, hl⟩]
    · rw [State.select_lenLo hp hl, if_neg fun h => hl h.2, if_pos ⟨rfl, (lcount_eq_one_iff _).2 hl⟩]
  | payloadPending =>
    rw [if_neg nofun, if_neg nofun, if_neg nofun, if_neg nofun]
    by_cases hd : s.dcount < s.dlen
    · rw [State.select_data hp hd, if_pos ⟨rfl, hd⟩]
    · rw [State.select_checksum hp hd, if_neg fun h => hd h.2]

/-- Settles O21: one row of the table for each phase and count, whatever the byte. -/
theorem noRetriggerOutsideIdle : Obligations.NoRetriggerOutsideIdle := by
  intro s hidle
  cases hp : s.phase with
  | idle => exact absurd hp hidle
  | lengthPending =>
    by_cases hl : s.lcount = 0
    · exact ⟨.lenHi, by simp, fun _ => State.select_lenHi hp hl⟩
    · exact ⟨.lenLo, by simp, fun _ => State.select_lenLo hp hl⟩
  | payloadPending =>
    by_cases hd : s.dcount < s.dlen
    · exact ⟨.data, by simp, fun _ => State.select_data hp hd⟩
    · exact ⟨.checksum, by simp, fun _ => State.select_checksum hp hd⟩

/-- Settles O16: SYNC is selected, and the invariant holds the other registers at 0 in IDLE. -/
theorem syncStartsAFrame : Obligations.SyncStartsAFrame := by
  intro s b hp hb
  have hsel := State.select_idle_sync hp hb
  exact ⟨hsel, State.ifSelected_of_eq _ _ hsel, fun hinv => (hinv.whenIdle hp).2⟩

/-- Settles O17: DISCARD is selected. -/
theorem discardChangesNothing : Obligations.DiscardChangesNothing := by
  intro s b hp hb
  have hsel := State.select_idle_other hp hb
  exact ⟨hsel, State.ifSelected_of_eq _ _ hsel⟩

/-- Settles O18: LEN_HI is selected, and the halves of `b * 256` are `b` and 0. -/
theorem lenHiSetsTheHighByte : Obligations.LenHiSetsTheHighByte := by
  intro s b hp hl
  have hsel := State.select_lenHi (b := b) hp hl
  refine ⟨hsel, _, State.ifSelected_of_eq _ _ hsel, rfl, ?_, hi_byte_mul_256 b, lo_byte_mul_256 b⟩
  have hvalue := lengthField_toNat b 0
  simpa using hvalue

/-- DATA, where it is selected. -/
theorem exec_data_of_select {s : State} {b : Byte} (h : s.select b = .data b) :
    exec (.data b) s = .next (s.takeData b) := execData_of_select h

/-- A valid frame, not empty since it is longer than the buffer, is dropped as OVERSIZE (R107, R175). -/
theorem State.dropReason_oversize {s : State} {c : Byte} (hcsum : csumOk s.dsum c = true)
    (hlen : s.cfg.nBuf < s.dlen.toNat) : s.dropReason c = some .oversize := by
  have hne : s.dlen ≠ 0 := by
    intro h0
    rw [h0] at hlen
    exact Nat.not_lt_zero _ hlen
  rw [State.dropReason, if_neg (by simp [hcsum]), if_neg fun h => hne h.1, if_pos hlen]

/-- CHECKSUM answers a next state only where it is selected, and a drop reason makes it a drop. -/
theorem exec_checksum_next_drop {s t : State} {c : Byte} {r : DropReason} (h : exec (.checksum c) s = .next t)
    (hr : s.dropReason c = some r) : t = (s.dropFrame r).toIdle := by
  obtain ⟨hsel, -⟩ := State.ifSelected_next.1 h
  have hdone : exec (.checksum c) s = .next _ := execChecksum_of_select hsel
  rw [hr] at hdone
  exact Host.Outcome.next.inj (h.symm.trans hdone)

/-- Settles O22: DATA makes `State.takeData`; an oversize frame by `exec_checksum_next_drop`. -/
theorem dataStoresSumsAndCounts : Obligations.DataStoresSumsAndCounts := by
  intro s b hp hd
  have hsel := State.select_data (b := b) hp hd
  refine ⟨hsel, s.takeData b, exec_data_of_select hsel, rfl, BitVec.toNat_add .., State.takeData_dcount_toNat hd b,
    ?counted, ?stored, ?full, ?default, ?oversize, ?elsewhere⟩
  case counted =>
    rw [State.takeData_dcount, State.takeData_dlen]
    bv_omega
  case stored =>
    intro hroom
    rw [State.takeData_dbuf, if_pos hroom, Memory.read_write, if_pos rfl]
  case full =>
    intro hfull
    rw [State.takeData_dbuf, if_neg (Nat.not_lt.2 hfull)]
  case default =>
    intro hbuf
    bv_omega
  case oversize =>
    intro hlong u v c hcfg hlen hcsum hexec
    rw [exec_checksum_next_drop hexec (State.dropReason_oversize hcsum (by rw [hcfg, hlen]; exact hlong))]
    rfl
  case elsewhere =>
    intro a ha
    rw [State.takeData_dbuf]
    split
    · rw [Memory.read_write, if_neg ha]
    · rfl

/-- Settles O23: CHECKSUM is selected and goes by the drop reason; a frame of length 0 has the sum 0. -/
theorem checksumCompletesTheFrame : Obligations.ChecksumCompletesTheFrame := by
  intro s c hp hd
  have hsel := State.select_checksum (b := c) hp (by simp [hd])
  refine ⟨hsel, (execChecksum_of_select hsel).trans (congrArg _ ?completed), ?empty, ?default⟩
  case completed =>
    unfold State.dropReason
    split_ifs <;> rfl
  case empty =>
    intro hinv h0
    have hcount : s.dcount.toNat = 0 := by rw [hd, h0]; rfl
    have hsum : s.dsum = 0 := by
      rw [hinv.payloadSum hp (by omega), hcount]
      rfl
    rw [csumOk_iff, hsum]
    bv_omega
  case default =>
    intro hbuf
    omega

/-! ### Runs of bytes -/

theorem runOps_rxChunk_append_next {v : List Byte} {s t : State} (w : List Byte) (h : runOps (rxChunk v) s = .next t) :
    runOps (rxChunk (v ++ w)) s = runOps (rxChunk w) t := by
  rw [rxChunk_append, runOps_append_next _ h]

/-- Settles O29, by induction on the bytes: each is discarded. -/
theorem garbageLeavesNoTrace : Obligations.GarbageLeavesNoTrace := by
  intro s garbage hp hgarbage
  induction garbage with
  | nil => rfl
  | cons b w ih =>
    obtain ⟨hb, hw⟩ := List.forall_mem_cons.1 hgarbage
    obtain ⟨hsel, hdiscard⟩ := discardChangesNothing s b hp hb
    have hexec : exec (.rxByte b) s = .next s := (execRxByte_of_select hsel).trans hdiscard
    exact (runOps_cons_next _ hexec).trans (ih hw)

/-- The sync byte and two length bytes open a frame (R101, R103, R104). -/
theorem runOps_rxChunk_header {s : State} (b1 b2 : Byte) (hp : s.phase = .idle) : runOps (rxChunk [0x7E, b1, b2]) s =
      .next (s.openPayload (b1.zeroExtend 16 * 256 + b2.zeroExtend 16)) := by
  have hsel := State.select_idle_sync hp rfl
  have hsync : exec (.rxByte 0x7E) s = .next _ :=
    (execRxByte_of_select hsel).trans (State.ifSelected_of_eq _ _ hsel)
  have hhi : exec (.rxByte b1) { s with phase := .lengthPending, lcount := 0 } = .next _ := execRxByte_lenHi b1 rfl rfl
  have hlo : exec (.rxByte b2)
      { s with phase := .lengthPending, dlen := b1.zeroExtend 16 * 256, lcount := 1 } = .next _ :=
    execRxByte_lenLo b2 rfl (by decide : (1 : BitVec 1) ≠ 0)
  exact (runOps_cons_next _ hsync).trans ((runOps_cons_next _ hhi).trans (runOps_cons_next _ hlo))

/-- While frame data bytes are missing, every byte is one of them: counted, summed, and stored where there is room (R106,
70_reset_and_hazards.md R198). By induction on the bytes. -/
theorem runOps_rxChunk_data {s : State} (w : List Byte) (hp : s.phase = .payloadPending)
    (hroom : s.dcount.toNat + w.length ≤ s.dlen.toNat) :
    ∃ m, runOps (rxChunk w) s = .next { s with
        dbuf := m
        dcount := s.dcount + BitVec.ofNat 16 w.length
        dsum := s.dsum + BitVec.ofNat 8 (sumBytes w) } ∧
      (s.dcount.toNat + w.length ≤ s.cfg.nBuf →
        State.stored { s with dbuf := m } (s.dcount.toNat + w.length) = s.stored s.dcount.toNat ++ w) := by
  induction w generalizing s with
  | nil => exact ⟨s.dbuf, by simp [rxChunk], by simp⟩
  | cons b w ih =>
    rw [List.length_cons] at hroom
    have hd : s.dcount < s.dlen := by bv_omega
    have hcount := State.takeData_dcount_toNat hd b
    have hsel := State.select_data (b := b) hp hd
    have htake : exec (.rxByte b) s = .next (s.takeData b) :=
      (execRxByte_of_select hsel).trans (exec_data_of_select hsel)
    obtain ⟨m, hrun, hstored⟩ := ih (s := s.takeData b) hp (by rw [hcount, State.takeData_dlen]; omega)
    refine ⟨m, ?run, fun hfit => ?stored⟩
    case run =>
      have hlen : s.dcount + 1 + BitVec.ofNat 16 w.length = s.dcount + BitVec.ofNat 16 (w.length + 1) := by bv_omega
      have hsum : s.dsum + b + BitVec.ofNat 8 (sumBytes w) = s.dsum + BitVec.ofNat 8 (sumBytes (b :: w)) := by
        have happend := ofNat_sumBytes_append [b] w
        rw [ofNat_sumBytes_singleton] at happend
        rw [BitVec.add_assoc, ← happend]
        rfl
      refine (runOps_cons_next _ htake).trans (hrun.trans ?_)
      rw [State.takeData_dcount, State.takeData_dsum, hlen, hsum]
      rfl
    case stored =>
      rw [List.length_cons] at hfit
      rw [hcount, State.takeData_cfg] at hstored
      have htail := hstored (by omega)
      rw [State.stored_takeData (by omega), List.append_assoc, List.singleton_append, Nat.add_right_comm] at htail
      exact htail

/-- The same from an open payload, where nothing is counted yet. -/
theorem runOps_rxChunk_openPayload {s : State} {len : U16} (d : List Byte) (hlen : d.length ≤ len.toNat) :
    ∃ m, runOps (rxChunk d) (s.openPayload len) = .next { s.openPayload len with
        dbuf := m
        dcount := BitVec.ofNat 16 d.length
        dsum := BitVec.ofNat 8 (sumBytes d) } ∧
      (d.length ≤ s.cfg.nBuf → State.stored { s with dbuf := m } d.length = d) := by
  have hzero : (s.openPayload len).dcount.toNat + d.length = d.length := Nat.zero_add _
  obtain ⟨m, hrun, hstored⟩ := runOps_rxChunk_data (s := s.openPayload len) d rfl (hzero.trans_le hlen)
  rw [State.openPayload_dcount, State.openPayload_dsum, zero_add, zero_add] at hrun
  rw [hzero] at hstored
  exact ⟨m, hrun, hstored⟩

/-- A frame up to its checksum byte, or to any byte of its data. -/
theorem runOps_rxChunk_openFrame {s : State} (b1 b2 : Byte) {d : List Byte} (hp : s.phase = .idle)
    (hlen : d.length ≤ b1.toNat * 256 + b2.toNat) :
    ∃ m, runOps (rxChunk ([0x7E, b1, b2] ++ d)) s =
        .next { s.openPayload (b1.zeroExtend 16 * 256 + b2.zeroExtend 16) with
          dbuf := m
          dcount := BitVec.ofNat 16 d.length
          dsum := BitVec.ofNat 8 (sumBytes d) } ∧
      (d.length ≤ s.cfg.nBuf → State.stored { s with dbuf := m } d.length = d) := by
  rw [runOps_rxChunk_append_next d (runOps_rxChunk_header b1 b2 hp)]
  obtain ⟨m, hrun, hstored⟩ := runOps_rxChunk_openPayload (s := s) d (hlen.trans (lengthField_toNat b1 b2).ge)
  exact ⟨m, hrun, hstored⟩

/-- Settles O19: LEN_LO is selected; `runOps_rxChunk_openPayload` takes the data bytes after it. -/
theorem lenLoOpensThePayload : Obligations.LenLoOpensThePayload := by
  intro s b hp hl
  have hsel := State.select_lenLo (b := b) hp ((lcount_eq_one_iff _).1 hl)
  refine ⟨hsel, s.openPayload (s.dlen + b.zeroExtend 16), State.ifSelected_of_eq _ _ hsel, rfl, ?halves, ?empty, ?data⟩
  case halves =>
    intro hinv
    obtain ⟨-, -, -, hlo⟩ := hinv.whenLength hp
    exact ⟨lo_add_byte hlo b, hi_add_byte hlo b⟩
  case empty =>
    intro h0 c
    exact State.select_checksum rfl (by rw [h0]; exact BitVec.not_lt_zero)
  case data =>
    intro w hw
    obtain ⟨m, hrun, -⟩ := runOps_rxChunk_openPayload w hw.le
    refine ⟨_, hrun, rfl, ?_, rfl⟩
    simp only [hw, BitVec.ofNat_toNat, BitVec.setWidth_eq]

/-- Settles O24: the forms by arithmetic, and the sum by `runOps_rxChunk_openFrame`. -/
theorem checksumPredicateForms : Obligations.ChecksumPredicateForms := by
  refine ⟨fun dsum c => ⟨?modulo, csumOk_iff dsum c, ?difference, BitVec.allOnes_sub_eq_not dsum⟩, fun d c => ?frameData,
    fun s b1 b2 d hp hlen => ?summed⟩
  case modulo =>
    rw [csumOk_iff]
    omega
  case difference =>
    rw [csumOk_iff]
    bv_omega
  case frameData =>
    rw [csumOk_iff, BitVec.toNat_ofNat]
    omega
  case summed =>
    obtain ⟨m, hrun, -⟩ := runOps_rxChunk_openFrame b1 b2 hp hlen
    exact ⟨_, hrun, BitVec.toNat_ofNat ..⟩

/-! ### Whole frames (R109 to R114) -/

theorem State.toIdle_eq_self {s : State} (hinv : s.Inv) (hp : s.phase = .idle) : s.toIdle = s := by
  obtain ⟨hlcount, hlen, hcount, hsum⟩ := hinv.whenIdle hp
  cases s
  cases hp; cases hlcount; cases hlen; cases hcount; cases hsum
  rfl

/-- The length field is rebuilt from its two halves (20_memory.md R43). -/
theorem lengthField_hi_lo (x : U16) : (hi x).zeroExtend 16 * 256 + (lo x).zeroExtend 16 = x := by
  apply BitVec.eq_of_toNat_eq
  rw [lengthField_toNat, hi_lo_toNat]

/-- The length of a frame that fits the buffer fits the length field (00_scope.md R10). -/
theorem State.Inv.toNat_ofNat_length {s : State} {d : List Byte} (hinv : s.Inv) (hfit : d.length ≤ s.cfg.nBuf) :
    (BitVec.ofNat 16 d.length).toNat = d.length := by
  obtain ⟨-, hbuf⟩ : 1 ≤ s.cfg.nBuf ∧ s.cfg.nBuf ≤ 65535 := by simpa [Config.legal] using hinv.cfgLegal
  exact Nat.mod_eq_of_lt (by omega)

theorem dropLast_wireFrame (d : List Byte) (c : Byte) : (wireFrame d c).dropLast =
    [0x7E, hi (BitVec.ofNat 16 d.length), lo (BitVec.ofNat 16 d.length)] ++ d := List.dropLast_concat

/-- A frame is the bytes before its checksum byte, and that byte (30_encoding.md R60). -/
theorem wireFrame_eq (d : List Byte) (c : Byte) : wireFrame d c = (wireFrame d c).dropLast ++ [c] := by
  rw [dropLast_wireFrame]
  rfl

/-- The state in which the frame data `d` of a whole frame has been received, and stands in the buffer `m`. -/
def State.received (s : State) (d : List Byte) (m : Memory) : State :=
  { s.openPayload (BitVec.ofNat 16 d.length) with
    dbuf := m
    dcount := BitVec.ofNat 16 d.length
    dsum := BitVec.ofNat 8 (sumBytes d) }

/-- All of a frame but its checksum byte, received from IDLE. -/
theorem runOps_wireFrame_dropLast {s : State} {d : List Byte} (c : Byte) (hinv : s.Inv) (hp : s.phase = .idle)
    (hfit : d.length ≤ s.cfg.nBuf) : ∃ m, runOps (rxChunk (wireFrame d c).dropLast) s = .next (s.received d m) ∧
      (s.received d m).stored d.length = d := by
  have hlen := hinv.toNat_ofNat_length hfit
  obtain ⟨m, hrun, hstored⟩ := runOps_rxChunk_openFrame (hi (BitVec.ofNat 16 d.length)) (lo (BitVec.ofNat 16 d.length))
    (d := d) hp (by rw [hi_lo_toNat, hlen])
  rw [lengthField_hi_lo, ← dropLast_wireFrame d c] at hrun
  exact ⟨m, hrun, hstored hfit⟩

/-- The checksum byte of a frame that is not empty and fits the buffer: the data is emitted or dropped, and the decoder
is back in IDLE (R107 to R110). -/
theorem exec_rxByte_received {s : State} {d : List Byte} {m : Memory} (c : Byte) (hne : 1 ≤ d.length)
    (hfit : d.length ≤ s.cfg.nBuf) (hlen : (BitVec.ofNat 16 d.length).toNat = d.length)
    (hstored : (s.received d m).stored d.length = d) :
    ∃ n, exec (.rxByte c) (s.received d m) =
        .next { s.toIdle with dbuf := m, dropCount := n, events := s.events ++ [frameEvent (d, c)] } ∧
      ((sumBytes d + c.toNat) % 256 = 0xFF → n = s.dropCount) := by
  have hsel : (s.received d m).select c = .checksum c := State.select_checksum rfl (BitVec.lt_irrefl _)
  have hexec : exec (.rxByte c) (s.received d m) = .next _ :=
    (execRxByte_of_select hsel).trans (execChecksum_of_select hsel)
  have hreason := State.dropReason_of_received (s := s.received d m) (d := d) c rfl hlen.symm (hlen.trans_le hfit)
  by_cases hvalid : (sumBytes d + c.toNat) % 256 = 0xFF
  · have hdata : d ≠ [] := List.ne_nil_of_length_pos hne
    rw [if_neg (not_not.2 hvalid), if_neg fun h => hdata h.1] at hreason
    have hframe : (List.range (s.received d m).dlen.toNat).map (s.received d m).bufByte = d :=
      (congrArg _ hlen).trans hstored
    rw [hreason] at hexec
    dsimp only at hexec
    rw [hframe] at hexec
    refine ⟨s.dropCount, hexec.trans ?_, fun _ => rfl⟩
    rw [frameEvent, if_pos hvalid]
    rfl
  · rw [if_pos hvalid] at hreason
    rw [hreason] at hexec
    refine ⟨satSucc s.cfg s.dropCount, hexec.trans ?_, fun h => absurd h hvalid⟩
    rw [frameEvent, if_neg hvalid]
    rfl

/-- A frame that is not empty and fits the buffer, received from IDLE. -/
theorem runOps_wireFrame {s : State} {d : List Byte} (c : Byte) (hinv : s.Inv) (hp : s.phase = .idle)
    (hne : 1 ≤ d.length) (hfit : d.length ≤ s.cfg.nBuf) :
    ∃ m n, runOps (rxChunk (wireFrame d c)) s =
        .next { s with dbuf := m, dropCount := n, events := s.events ++ [frameEvent (d, c)] } ∧
      ((sumBytes d + c.toNat) % 256 = 0xFF → n = s.dropCount) := by
  obtain ⟨m, hrun, hstored⟩ := runOps_wireFrame_dropLast c hinv hp hfit
  have hlen := hinv.toNat_ofNat_length hfit
  obtain ⟨n, hlast, hcount⟩ := exec_rxByte_received c hne hfit hlen hstored
  rw [State.toIdle_eq_self hinv hp] at hlast
  refine ⟨m, n, ?_, hcount⟩
  rw [wireFrame_eq, runOps_rxChunk_append_next [c] hrun]
  exact runOps_cons_next [] hlast

/-- Settles O28: the garbage leaves the state alone, and then `runOps_wireFrame` with its event FRAME_OUT. -/
theorem exactConsumption : Obligations.ExactConsumption := by
  intro s garbage d c hinv hp hgarbage hne hfit hvalid
  have hnone := garbageLeavesNoTrace s garbage hp hgarbage
  constructor
  · obtain ⟨m, hrun, -⟩ := runOps_wireFrame_dropLast c hinv hp hfit
    exact ⟨_, (runOps_rxChunk_append_next _ hnone).trans hrun, rfl⟩
  · obtain ⟨m, n, hrun, hcount⟩ := runOps_wireFrame c hinv hp hne hfit
    rw [hcount hvalid, frameEvent, if_pos hvalid] at hrun
    exact ⟨_, (runOps_rxChunk_append_next _ hnone).trans hrun, rfl⟩

/-- Settles O30, by induction on the frames: after each, the decoder is in IDLE and the invariant holds again. -/
theorem framesBackToBack : Obligations.FramesBackToBack := by
  intro frames
  induction frames with
  | nil =>
    rintro s - - -
    exact ⟨s, rfl, by simp⟩
  | cons f frames ih =>
    intro s hinv hp hframes
    obtain ⟨⟨hne, hfit⟩, hrest⟩ := List.forall_mem_cons.1 hframes
    obtain ⟨m, n, hrun, -⟩ := runOps_wireFrame f.2 hinv hp hne hfit
    obtain ⟨t, hrun', ht⟩ := ih _ (runOps_keeps_inv hinv hrun) hp hrest
    rw [List.append_assoc] at ht
    exact ⟨t, (runOps_rxChunk_append_next _ hrun).trans hrun', ht⟩

/-! ### Delivery in chunks (R112) -/

/-- A step with no operation delivered (60_exceptions.md R183). -/
theorem step_of_opIn_nil {s : State} (h : s.opIn = []) : step s = .next s := by
  simp [step, State.fetch, h]

/-- A step takes the first of the bytes that wait, and leaves the others waiting. -/
theorem step_offer_cons {s : State} (b : Byte) (p : List Byte) (hops : s.opIn = []) :
    ∃ t, exec (.rxByte b) s = .next t ∧ t.opIn = [] ∧ step (s.offer (b :: p)) = .next (t.offer p) := by
  obtain ⟨t, ht⟩ := exec_hostOp_anyStream (i := .rxByte b) rfl s
  have hdecode : decode (s.offer (b :: p)).opIn = .ok (.rxByte b, encodeAll (rxChunk p)) := by
    rw [State.offer, hops]
    rfl
  refine ⟨{ t with opIn := [] }, ?_, rfl, (step_of_decode hdecode).trans (ht _)⟩
  have hexec : exec (.rxByte b) s = .next { t with opIn := s.opIn } := ht s.opIn
  rwa [hops] at hexec

/-- Some steps on waiting bytes do the first bytes, as many as there are steps, and then idle. -/
theorem run_offer (k : Nat) (p : List Byte) {s : State} (hops : s.opIn = []) :
    ∃ t, runOps (rxChunk (p.take k)) s = .next t ∧ t.opIn = [] ∧
      Host.Core.run Sys2Proof.core k (s.offer p) = .next (t.offer (p.drop k)) := by
  induction k generalizing p s with
  | zero => exact ⟨s, rfl, hops, rfl⟩
  | succ k ih =>
    cases p with
    | nil =>
      obtain ⟨t, hrun, ht, hsteps⟩ := ih [] hops
      refine ⟨t, by simpa using hrun, ht, ?_⟩
      simp only [List.drop_nil, State.offer_nil] at hsteps ⊢
      exact (run_succ_of_step (M := Sys2Proof.core) k (step_of_opIn_nil hops)).trans hsteps
    | cons b p =>
      obtain ⟨u, hexec, hu, hstep⟩ := step_offer_cons b p hops
      obtain ⟨t, hrun, ht, hsteps⟩ := ih p hu
      exact ⟨t, (runOps_cons_next _ hexec).trans hrun, ht,
        (run_succ_of_step (M := Sys2Proof.core) k hstep).trans hsteps⟩

/-- Enough steps do every byte that waits. -/
theorem run_offer_all {k : Nat} {p : List Byte} {s : State} (hops : s.opIn = []) (hk : p.length ≤ k) :
    ∃ t, runOps (rxChunk p) s = .next t ∧ t.opIn = [] ∧ Host.Core.run Sys2Proof.core k (s.offer p) = .next t := by
  have h := run_offer k p hops
  simpa only [List.take_of_length_le hk, List.drop_of_length_le hk, State.offer_nil] using h

/-- A delivery over time, with bytes `p` waiting at its start, does the first part `v` of all the bytes and leaves the
rest `q` waiting. By induction on the schedule. -/
theorem deliverInSteps_offer (schedule : List (List Byte × Nat)) (p : List Byte) {s : State} (hops : s.opIn = []) :
    ∃ v q t, v ++ q = p ++ (schedule.map Prod.fst).flatten ∧ runOps (rxChunk v) s = .next t ∧ t.opIn = [] ∧
      deliverInSteps schedule (s.offer p) = .next (t.offer q) := by
  induction schedule generalizing p s with
  | nil => exact ⟨[], p, s, by simp, rfl, hops, rfl⟩
  | cons chunk schedule ih =>
    obtain ⟨w, k⟩ := chunk
    obtain ⟨u, hrun, hu, hsteps⟩ := run_offer k (p ++ w) hops
    obtain ⟨v, q, t, hbytes, hrun', ht, hdeliver⟩ := ih ((p ++ w).drop k) hu
    refine ⟨(p ++ w).take k ++ v, q, t, ?_, (runOps_rxChunk_append_next v hrun).trans hrun', ht, ?_⟩
    · rw [List.append_assoc, hbytes, ← List.append_assoc, List.take_append_drop]
      simp
    · rw [deliverInSteps, State.offer_offer, hsteps]
      exact hdeliver

/-- A run of bytes does to the partial-frame buffer, and emits, what the source's decoder does (10_state.md R20). -/
theorem runOps_refines_sourceRun {w : List Byte} {s t : State} (hinv : s.Inv) (hbuf : s.cfg.nBuf = 65535)
    (h : runOps (rxChunk w) s = .next t) :
    t.partialFrame = (sourceRun s.cfg.pEmpty s.partialFrame w).1 ∧
      t.events = s.events ++ (sourceRun s.cfg.pEmpty s.partialFrame w).2 := by
  induction w generalizing s with
  | nil =>
    cases h
    exact ⟨rfl, (List.append_nil _).symm⟩
  | cons b w ih =>
    obtain ⟨u, hexec, hrun⟩ := runOps_cons_inv h
    obtain ⟨hframe, hevents⟩ := execRxByte_refines_sourceDecode hinv hbuf hexec
    have hcfg := exec_next_cfg hexec
    obtain ⟨hframe', hevents'⟩ := ih (exec_keeps_inv hinv hexec) (by rw [hcfg, hbuf]) hrun
    rw [hcfg, hframe] at hframe' hevents'
    rw [hevents, List.append_assoc] at hevents'
    exact ⟨hframe', hevents'⟩

/-- Settles O27: piece by piece or at once, the bytes done in the end are all of them, in order. -/
theorem chunkIndependence : Obligations.ChunkIndependence := by
  intro schedule s n hops w hn
  obtain ⟨v, q, u, hbytes, hrun, hu, hdeliver⟩ := deliverInSteps_offer schedule [] hops
  rw [State.offer_nil] at hdeliver
  replace hbytes : v ++ q = w := hbytes.trans (List.nil_append _)
  have hq : q.length ≤ n := by
    have hlength := congrArg List.length hbytes
    rw [List.length_append] at hlength
    omega
  obtain ⟨t, hrest, ht, hsteps⟩ := run_offer_all hu hq
  have hall : runOps (rxChunk w) s = .next t := by
    rw [← hbytes, runOps_rxChunk_append_next q hrun, hrest]
  obtain ⟨t', hall', -, hwhole⟩ := run_offer_all hops hn
  obtain rfl := Host.Outcome.next.inj (hall.symm.trans hall')
  exact ⟨t, ⟨_, hdeliver, hsteps⟩, hwhole, ht, fun hinv hbuf => runOps_refines_sourceRun hinv hbuf hall⟩

end Sys2Proof.Machine
end

section
/-! SUPPORT. The frame encoder of 41_encoder.md: the helpers, the contents the command builders assemble, the frame that
is sent, its identifier, and its way back through the decoder. -/

namespace Sys2Proof.Machine

/-! ### Errors raised and frames sent, told apart -/

/-- Two errors raised in one state are told apart by their events (60_exceptions.md R172). -/
theorem State.raise_ne_raise (s : State) {e e' : EncError} (hne : e ≠ e') : s.raise e ≠ s.raise e' := by
  intro h
  have hevents : s.events ++ [Event.err e] = s.events ++ [.err e'] := congrArg State.events (Host.Outcome.next.inj h)
  exact hne (by simpa using hevents)

/-- A frame sent is no error raised. -/
theorem State.next_sent_ne_raise (s : State) (bs : List Byte) (e : EncError) : .next (s.sent bs) ≠ s.raise e := by
  intro h
  have hevents : s.events ++ [Event.txFrame bs] = s.events ++ [.err e] := congrArg State.events (Host.Outcome.next.inj h)
  simp at hevents

/-! ### The helpers (R130, R131) -/

theorem addrNorm_eq_padLeft {a : List Byte} {size : Nat} (h : a.length ≤ size) :
    addrNorm a size = .ok (padLeft size a) :=
  addrNorm_of_le h

theorem length_padLeft {a : List Byte} {n : Nat} (h : a.length ≤ n) : (padLeft n a).length = n := by
  simp only [padLeft, List.length_append, List.length_replicate]
  omega

theorem padLeft_of_length_eq {a : List Byte} {n : Nat} (h : a.length = n) : padLeft n a = a := by
  simp [padLeft, h]

/-- The checksum is the bitwise complement of the sum mod 256. -/
theorem checksumOf_eq_not (d : List Byte) : checksumOf d = ~~~(BitVec.ofNat 8 (sumBytes d % 256)) := by
  apply BitVec.eq_of_toNat_eq
  rw [checksumOf_toNat, BitVec.toNat_not, BitVec.toNat_ofNat, Nat.mod_mod]

/-- Frame data and their checksum sum to 0xFF mod 256. -/
theorem sumBytes_add_checksumOf (d : List Byte) : (sumBytes d + (checksumOf d).toNat) % 256 = 0xFF := by
  rw [checksumOf_toNat]
  omega

/-- Settles O40: the two cases of ADDR_NORM; a field of the full size gets no zeros. -/
theorem addrNormPadsOrErrs : Obligations.AddrNormPadsOrErrs := by
  intro a size _
  refine ⟨addrNorm_of_gt, fun hle => ⟨_, addrNorm_eq_padLeft hle, rfl, length_padLeft hle⟩, fun heq => ?_, ?_⟩
  · rw [addrNorm_eq_padLeft heq.le, padLeft_of_length_eq heq]
  · rw [addrNorm_of_le (Nat.zero_le size)]
    simp

/-! ### The frame that is sent (R132, R133) -/

/-- The frame of `ty` and `content` is its frame data on the wire, with their checksum (30_encoding.md R60, R64). -/
theorem frameBytes_eq_wireFrame (cfg : Config) (ty fid : Byte) (content : List Byte) :
    frameBytes cfg ty fid content = wireFrame ([ty, fid] ++ content) (checksumOf ([ty, fid] ++ content)) := rfl

/-- The identifier is frame data byte 1 (30_encoding.md R69). -/
theorem frameBytes_getElem?_four (cfg : Config) (ty fid : Byte) (content : List Byte) :
    (frameBytes cfg ty fid content)[4]? = some fid := rfl

/-- The length of the frame data fits the length field. -/
theorem toNat_ofNat_content {content : List Byte} (h : content.length ≤ 65533) :
    (BitVec.ofNat 16 (content.length + 2)).toNat = content.length + 2 :=
  Nat.mod_eq_of_lt (by omega)

/-- BUILD_FRAME of a content that fits sends the frame and advances the identifier. -/
theorem exec_buildFrame_of_le (ty : Byte) {content : List Byte} (s : State) (h : content.length ≤ 65533) :
    exec (.buildFrame ty content) s = .next (s.sent (frameBytes s.cfg ty s.frameId content)) :=
  State.sendFrame_of_le ty h

theorem exec_buildFrame_of_gt (ty : Byte) {content : List Byte} (s : State) (h : 65533 < content.length) :
    exec (.buildFrame ty content) s = s.raise .lengthOverflow :=
  State.sendFrame_of_gt ty h

/-- Settles O41: the checksum by arithmetic; BUILD_FRAME ends its frame with the checksum of the frame data. -/
theorem checksumFunction : Obligations.ChecksumFunction := by
  refine ⟨fun d => ⟨checksumOf_toNat d, checksumOf_eq_not d, sumBytes_add_checksumOf d, ?accepted⟩,
    fun ty content s hle => ?sent⟩
  case accepted =>
    rw [csumOk_iff, checksumOf_toNat, BitVec.toNat_ofNat]
    omega
  case sent => exact ⟨_, [_, _, _], exec_buildFrame_of_le ty s hle, rfl, rfl⟩

/-- Settles O42: the two cases of BUILD_FRAME. -/
theorem buildFrameSendsTheFrame : Obligations.BuildFrameSendsTheFrame :=
  fun ty _ s => ⟨fun hle => ⟨_, toNat_ofNat_content hle, exec_buildFrame_of_le ty s hle⟩,
    exec_buildFrame_of_gt ty s, rfl, fun _ => nextFid_ne_zero s.frameId⟩

/-! ### The command builders (R135 to R138) -/

/-- AT_COMMAND is BUILD_FRAME of its content. -/
theorem exec_atCommand (cmd : CmdName) (params : Option (List Byte)) (s : State) :
    exec (.atCommand cmd params) s = exec (.buildFrame 0x08 (atContent cmd params)) s := rfl

theorem length_atContent (cmd : CmdName) (params : Option (List Byte)) :
    (atContent cmd params).length = 2 + (params.getD []).length := by
  simp only [atContent, cmdBytes, List.length_append, List.length_cons, List.length_nil]

/-- Settles O45: the content has two bytes before `params`. -/
theorem atCommandBuildsItsFrame : Obligations.AtCommandBuildsItsFrame := by
  intro cmd params s
  have hlength := length_atContent cmd params
  exact ⟨exec_atCommand cmd params s, fun hle => exec_buildFrame_of_le 0x08 s (by omega),
    fun hgt => exec_buildFrame_of_gt 0x08 s (by omega), rfl⟩

/-! #### The two addresses -/

theorem destBytes_of_long {dest64 dest16 : List Byte} (h : 8 < dest64.length ∨ 2 < dest16.length) :
    destBytes dest64 dest16 = .error .addrTooLong := by
  rcases Nat.lt_or_ge 8 dest64.length with h64 | h64
  · rw [destBytes, addrNorm_of_gt h64]
    rfl
  · rw [destBytes, addrNorm_eq_padLeft h64, addrNorm_of_gt (h.resolve_left (by omega))]
    rfl

theorem destBytes_of_fits {dest64 dest16 : List Byte} (h64 : dest64.length ≤ 8) (h16 : dest16.length ≤ 2) :
    destBytes dest64 dest16 = .ok (padLeft 8 dest64 ++ padLeft 2 dest16) := by
  rw [destBytes, addrNorm_eq_padLeft h64, addrNorm_eq_padLeft h16]
  rfl

section
variable {dest64 dest16 : List Byte} (s : State) (ty : Byte) (rest : List Byte → Except EncError (List Byte))

/-- The addresses are checked first (60_exceptions.md R174): an address too long ends a builder with its error. -/
theorem State.sendBuilt_of_longDest (h : 8 < dest64.length ∨ 2 < dest16.length) :
    s.sendBuilt ty (destBytes dest64 dest16 >>= rest) = s.raise .addrTooLong := by
  rw [destBytes_of_long h]
  rfl

/-- With addresses that fit, a builder goes on with the ten bytes of the two. -/
theorem State.sendBuilt_of_destFits (h64 : dest64.length ≤ 8) (h16 : dest16.length ≤ 2) :
    s.sendBuilt ty (destBytes dest64 dest16 >>= rest) = s.sendBuilt ty (rest (padLeft 8 dest64 ++ padLeft 2 dest16)) := by
  rw [destBytes_of_fits h64 h16]
  rfl

end

/-! #### TRANSMIT_DATA and REMOTE_AT (R136, R137) -/

/-- Settles O46: with addresses that fit, twelve bytes of the content stand before `data`. -/
theorem transmitDataBuildsItsFrame : Obligations.TransmitDataBuildsItsFrame := by
  intro dest64 dest16 data options radius s content
  have hfits (h64 : dest64.length ≤ 8) (h16 : dest16.length ≤ 2) :
      exec (.transmitData dest64 dest16 data options radius) s = exec (.buildFrame 0x10 content) s :=
    s.sendBuilt_of_destFits 0x10 _ h64 h16
  have hlength (h64 : dest64.length ≤ 8) (h16 : dest16.length ≤ 2) : content.length = 12 + data.length := by
    simp only [content, List.length_append, length_padLeft h64, length_padLeft h16, List.length_cons, List.length_nil]
  refine ⟨hfits, fun h64 h16 hle => ?sent, s.sendBuilt_of_longDest 0x10 _, fun h64 h16 hgt => ?overflow, rfl⟩
  case sent => exact (hfits h64 h16).trans (exec_buildFrame_of_le 0x10 s (by rw [hlength h64 h16]; omega))
  case overflow => exact (hfits h64 h16).trans (exec_buildFrame_of_gt 0x10 s (by rw [hlength h64 h16]; omega))

/-- Settles O47: with addresses that fit, thirteen bytes of the content stand before `params`. -/
theorem remoteAtBuildsItsFrame : Obligations.RemoteAtBuildsItsFrame := by
  intro dest64 dest16 cmd params options s content
  have hfits (h64 : dest64.length ≤ 8) (h16 : dest16.length ≤ 2) :
      exec (.remoteAt dest64 dest16 cmd params options) s = exec (.buildFrame 0x17 content) s :=
    s.sendBuilt_of_destFits 0x17 _ h64 h16
  have hlength (h64 : dest64.length ≤ 8) (h16 : dest16.length ≤ 2) :
      content.length = 13 + (params.getD []).length := by
    simp only [content, List.length_append, length_padLeft h64, length_padLeft h16, List.length_cons, List.length_nil]
  refine ⟨hfits, fun h64 h16 hle => ?sent, s.sendBuilt_of_longDest 0x17 _, fun h64 h16 hgt => ?overflow, rfl⟩
  case sent => exact (hfits h64 h16).trans (exec_buildFrame_of_le 0x17 s (by rw [hlength h64 h16]; omega))
  case overflow => exact (hfits h64 h16).trans (exec_buildFrame_of_gt 0x17 s (by rw [hlength h64 h16]; omega))

/-! #### CREATE_SOURCE_ROUTE (R138, R140) -/

/-- Hops that fit are padded and flattened in route order. -/
theorem hopsNorm_of_fits {route : List (List Byte)} (h : ∀ hop ∈ route, hop.length ≤ 2) :
    hopsNorm route = .ok (route.map (padLeft 2)).flatten := by
  induction route with
  | nil => rfl
  | cons hop route ih =>
    obtain ⟨hhop, hroute⟩ := List.forall_mem_cons.1 h
    rw [hopsNorm, addrNorm_eq_padLeft hhop, ih hroute]
    rfl

theorem hopsNorm_of_long {route : List (List Byte)} (h : ∃ hop ∈ route, 2 < hop.length) :
    hopsNorm route = .error .addrTooLong := by
  obtain ⟨long, hmem, hlong⟩ := h
  induction route with
  | nil => cases hmem
  | cons hop route ih =>
    rcases Nat.lt_or_ge 2 hop.length with hhop | hhop
    · rw [hopsNorm, addrNorm_of_gt hhop]
      rfl
    · have hroute : long ∈ route := (List.mem_cons.1 hmem).resolve_left (by rintro rfl; omega)
      rw [hopsNorm, addrNorm_eq_padLeft hhop, ih hroute]
      rfl

/-- Two bytes a hop (R140). -/
theorem length_hops {route : List (List Byte)} (h : ∀ hop ∈ route, hop.length ≤ 2) :
    (route.map (padLeft 2)).flatten.length = 2 * route.length := by
  have hlengths : (route.map (padLeft 2)).map List.length = List.replicate route.length 2 := by
    rw [List.map_map]
    exact List.map_eq_replicate_iff.2 fun hop hhop => length_padLeft (h hop hhop)
  rw [List.length_flatten, hlengths, List.sum_replicate, smul_eq_mul, Nat.mul_comm]

section
variable {dest64 dest16 : List Byte} {route : List (List Byte)} (s : State)

theorem exec_createSourceRoute_of_longDest (h : 8 < dest64.length ∨ 2 < dest16.length) :
    exec (.createSourceRoute dest64 dest16 route) s = s.raise .addrTooLong :=
  s.sendBuilt_of_longDest 0x21 _ h

variable (h64 : dest64.length ≤ 8) (h16 : dest16.length ≤ 2)
include h64 h16

theorem exec_createSourceRoute_of_longRoute (hroute : 255 < route.length) :
    exec (.createSourceRoute dest64 dest16 route) s = s.raise .routeTooLong :=
  (s.sendBuilt_of_destFits 0x21 _ h64 h16).trans (congrArg (s.sendBuilt 0x21) (if_pos hroute))

/-- A route that is not too long is decided by its hops. -/
theorem exec_createSourceRoute_of_le (hroute : route.length ≤ 255) :
    exec (.createSourceRoute dest64 dest16 route) s = s.sendBuilt 0x21 (hopsNorm route >>= fun hops =>
      .ok (padLeft 8 dest64 ++ padLeft 2 dest16 ++ [0x00, BitVec.ofNat 8 route.length] ++ hops)) :=
  (s.sendBuilt_of_destFits 0x21 _ h64 h16).trans (congrArg (s.sendBuilt 0x21) (if_neg (Nat.not_lt.2 hroute)))

theorem exec_createSourceRoute_of_longHop (hroute : route.length ≤ 255) (hhops : ∃ hop ∈ route, 2 < hop.length) :
    exec (.createSourceRoute dest64 dest16 route) s = s.raise .addrTooLong := by
  rw [exec_createSourceRoute_of_le s h64 h16 hroute, hopsNorm_of_long hhops]
  rfl

theorem exec_createSourceRoute_of_fits (hroute : route.length ≤ 255) (hhops : ∀ hop ∈ route, hop.length ≤ 2) :
    exec (.createSourceRoute dest64 dest16 route) s = exec (.buildFrame 0x21 (padLeft 8 dest64 ++ padLeft 2 dest16 ++
      [0x00, BitVec.ofNat 8 route.length] ++ (route.map (padLeft 2)).flatten)) s := by
  rw [exec_createSourceRoute_of_le s h64 h16 hroute, hopsNorm_of_fits hhops]
  rfl

/-- The two addresses, the reserved byte and the hop count take twelve bytes, and each hop two. -/
theorem length_createSourceRoute (n : Byte) (hhops : ∀ hop ∈ route, hop.length ≤ 2) :
    (padLeft 8 dest64 ++ padLeft 2 dest16 ++ [0x00, n] ++ (route.map (padLeft 2)).flatten).length =
      12 + 2 * route.length := by
  simp only [List.length_append, length_padLeft h64, length_padLeft h16, length_hops hhops, List.length_cons,
    List.length_nil]

end

/-- ENC_LENGTH_OVERFLOW cannot arise: the content of a route that fits has at most 522 bytes (R138). -/
theorem exec_createSourceRoute_ne_overflow (dest64 dest16 : List Byte) (route : List (List Byte)) (s : State) :
    exec (.createSourceRoute dest64 dest16 route) s ≠ s.raise .lengthOverflow := by
  by_cases hdest : 8 < dest64.length ∨ 2 < dest16.length
  · rw [exec_createSourceRoute_of_longDest s hdest]
    exact s.raise_ne_raise nofun
  obtain ⟨h64, h16⟩ : dest64.length ≤ 8 ∧ dest16.length ≤ 2 := by omega
  rcases Nat.lt_or_ge 255 route.length with hroute | hroute
  · rw [exec_createSourceRoute_of_longRoute s h64 h16 hroute]
    exact s.raise_ne_raise nofun
  by_cases hhops : ∃ hop ∈ route, 2 < hop.length
  · rw [exec_createSourceRoute_of_longHop s h64 h16 hroute hhops]
    exact s.raise_ne_raise nofun
  · replace hhops : ∀ hop ∈ route, hop.length ≤ 2 := by simpa using hhops
    rw [exec_createSourceRoute_of_fits s h64 h16 hroute hhops,
      exec_buildFrame_of_le 0x21 s (by rw [length_createSourceRoute h64 h16 _ hhops]; omega)]
    exact s.next_sent_ne_raise _ _

/-- Settles O48: each case of the operands in turn, and `exec_createSourceRoute_ne_overflow`. -/
theorem createSourceRouteBuildsItsFrame : Obligations.CreateSourceRouteBuildsItsFrame := by
  intro dest64 dest16 route s
  refine ⟨fun h64 h16 hroute hhops => ?sent, exec_createSourceRoute_of_longDest s,
    exec_createSourceRoute_of_longRoute s, exec_createSourceRoute_of_longHop s,
    exec_createSourceRoute_ne_overflow dest64 dest16 route s, rfl⟩
  case sent =>
    have hfits := exec_createSourceRoute_of_fits s h64 h16 hroute hhops
    have hlength := length_createSourceRoute h64 h16 (BitVec.ofNat 8 route.length) hhops
    exact ⟨BitVec.ofNat 8 route.length, Nat.mod_eq_of_lt (by omega), hlength, by omega, hfits,
      hfits.trans (exec_buildFrame_of_le 0x21 s (by omega))⟩

/-- Settles O43: the overflow case of each builder, and `exec_createSourceRoute_ne_overflow`. -/
theorem lengthLimit : Obligations.LengthLimit := by
  intro s
  refine ⟨rfl, fun ty _ => exec_buildFrame_of_gt ty s, fun cmd params hgt => ?command,
    fun dest64 dest16 data options radius h64 h16 hgt => ?transmit,
    fun dest64 dest16 cmd params options h64 h16 hgt => ?remote,
    fun dest64 dest16 route => exec_createSourceRoute_ne_overflow dest64 dest16 route s⟩
  case command =>
    obtain ⟨-, -, hoverflow, -⟩ := atCommandBuildsItsFrame cmd (some params) s
    exact hoverflow hgt
  case transmit =>
    obtain ⟨-, -, -, hoverflow, -⟩ := transmitDataBuildsItsFrame dest64 dest16 data options radius s
    exact hoverflow h64 h16 hgt
  case remote =>
    obtain ⟨-, -, -, hoverflow, -⟩ := remoteAtBuildsItsFrame dest64 dest16 cmd (some params) options s
    exact hoverflow h64 h16 hgt

/-! ### The identifiers of the frames sent (R134, R139, R141, R142) -/

theorem nextFid_toNat {fid : Byte} {n : Nat} (h : fid.toNat = n % 255 + 1) : (nextFid fid).toNat = (n + 1) % 255 + 1 := by
  unfold nextFid
  split <;> bv_omega

theorem txFrames_append (es es' : List Event) : txFrames (es ++ es') = txFrames es ++ txFrames es' := by
  induction es with
  | nil => rfl
  | cons e es ih => cases e <;> simp [txFrames, ih]

/-- What an instruction does to the identifier: it sends one frame that carries it and advances it, or sends none and
leaves it, or is RESET, which sends none (10_state.md R27). -/
theorem exec_next_frameId {i : Instr} {s t : State} (h : exec i s = .next t) : ∃ new, t.events = s.events ++ new ∧
    ((∃ bs, new = [.txFrame bs] ∧ bs[4]? = some s.frameId ∧ t.frameId = nextFid s.frameId) ∨
      (txFrames new = [] ∧ t.frameId = s.frameId) ∨ (i = .reset ∧ new = [] ∧ t.frameId = 1)) := by
  cases hu : i.unit with
  | decoder =>
    obtain ⟨b, -, hb⟩ := exec_decoder_next hu h
    obtain ⟨hfid, -⟩ := execRxByte_frame hb
    rcases execRxByte_next_events hb with hev | ⟨r, hev⟩ | ⟨d, hev⟩
    · exact ⟨[], by simpa using hev, .inr (.inl ⟨rfl, hfid⟩)⟩
    · exact ⟨_, hev, .inr (.inl ⟨rfl, hfid⟩)⟩
    · exact ⟨_, hev, .inr (.inl ⟨rfl, hfid⟩)⟩
  | encoder =>
    rcases exec_encoder_cases hu s with ⟨e, he⟩ | ⟨ty, content, -, he⟩ <;> cases he.symm.trans h
    · exact ⟨_, rfl, .inr (.inl ⟨rfl, rfl⟩)⟩
    · exact ⟨_, rfl, .inl ⟨_, rfl, frameBytes_getElem?_four .., rfl⟩⟩
  | both =>
    cases i with
    | status => cases h; exact ⟨_, rfl, .inr (.inl ⟨rfl, rfl⟩)⟩
    | reset => cases h; exact ⟨[], by simp, .inr (.inr ⟨rfl, rfl, rfl⟩)⟩
    | _ => cases hu

/-- A run without RESET, after `n` frames: the identifiers go on from the `n`-th. By induction on the operations. -/
theorem runOps_next_frameId {is : List Instr} {s t : State} {n : Nat} (hreset : ∀ i ∈ is, i ≠ .reset)
    (hfid : s.frameId.toNat = n % 255 + 1) (h : runOps is s = .next t) : ∃ new, t.events = s.events ++ new ∧
      t.frameId.toNat = (n + (txFrames new).length) % 255 + 1 ∧
      ∀ k bs, (txFrames new)[k]? = some bs → (bs[4]?).map BitVec.toNat = some ((n + k) % 255 + 1) := by
  induction is generalizing s n with
  | nil =>
    cases h
    exact ⟨[], by simp, hfid, by simp [txFrames]⟩
  | cons i is ih =>
    obtain ⟨hi, his⟩ := List.forall_mem_cons.1 hreset
    obtain ⟨u, hexec, hrun⟩ := runOps_cons_inv h
    obtain ⟨new, hev, ⟨bs, rfl, hbs, hu⟩ | ⟨hnone, hu⟩ | ⟨hi', -⟩⟩ := exec_next_frameId hexec
    · obtain ⟨later, hlater, hlast, hids⟩ := ih (n := n + 1) his (hu ▸ nextFid_toNat hfid) hrun
      refine ⟨.txFrame bs :: later, by simp [hlater, hev], ?_, fun k bs' hk => ?_⟩
      · rw [hlast, txFrames, List.length_cons, Nat.add_right_comm, Nat.add_assoc]
      · cases k with
        | zero =>
          obtain rfl := Option.some.inj hk
          exact (congrArg (Option.map BitVec.toNat) hbs).trans (congrArg some hfid)
        | succ k =>
          rw [hids k bs' hk, Nat.add_right_comm, Nat.add_assoc]
    · obtain ⟨later, hlater, hlast, hids⟩ := ih (n := n) his (hu ▸ hfid) hrun
      refine ⟨new ++ later, by rw [hlater, hev, List.append_assoc], ?_⟩
      rw [txFrames_append, hnone, List.nil_append]
      exact ⟨hlast, hids⟩
    · exact absurd hi' hi

/-- Settles O44: `runOps_next_frameId` from the identifier 1, before any frame. -/
theorem frameIdSequence : Obligations.FrameIdSequence := by
  intro is s t his hfid h
  simpa using runOps_next_frameId (n := 0) (fun i hi => (his i hi).2) (by rw [hfid]; rfl) h

/-- Settles O51: the three cases of `exec_next_frameId`; a frame sent carries the identifier. -/
theorem sentFrameIdIsNeverZero : Obligations.SentFrameIdIsNeverZero := by
  intro i s t hne h
  obtain ⟨new, hev, hcases⟩ := exec_next_frameId h
  constructor
  · rcases hcases with ⟨bs, -, -, hfid⟩ | ⟨-, hfid⟩ | ⟨-, -, hfid⟩ <;> rw [hfid]
    · exact nextFid_ne_zero _
    · exact hne
    · decide
  · intro bs _ hbs
    obtain rfl : new = [.txFrame bs] := List.append_cancel_left (hev.symm.trans hbs)
    rcases hcases with ⟨bs', hbs', hid, -⟩ | ⟨hnone, -⟩ | ⟨-, hnil, -⟩
    · cases hbs'
      exact ⟨hid, by simpa [hid] using hne⟩
    · cases hnone
    · cases hnil

/-- Settles O50: what is sent is the frame data on the wire, with their length and their checksum. -/
theorem sentFrameIsWhole : Obligations.SentFrameIsWhole := by
  intro i s t hu h
  rcases exec_encoder_cases hu s with ⟨e, he⟩ | ⟨ty, content, hle, he⟩ <;> cases he.symm.trans h
  · exact .inl ⟨e, rfl⟩
  · refine .inr ⟨_, _, _, [ty, s.frameId] ++ content, rfl, ?length, by simp, sumBytes_add_checksumOf _⟩
    rw [hi_lo_toNat, toNat_ofNat_content hle]
    rfl

/-! ### The way back through the decoder (R143) -/

/-- Chunks delivered one after the other are their bytes in one run (40_decoder.md R112). -/
theorem deliver_eq_runOps (chunks : List (List Byte)) (s : State) :
    deliver chunks s = runOps (rxChunk chunks.flatten) s := by
  induction chunks generalizing s with
  | nil => rfl
  | cons w chunks ih =>
    rw [List.flatten_cons, rxChunk_append, runOps_append, deliver]
    cases runOps (rxChunk w) s with
    | next t => exact ih t
    | fault f => rfl
    | refused r => rfl

/-- A frame with the encoder's checksum, received from IDLE, is emitted (40_decoder.md R109). -/
theorem runOps_wireFrame_checksumOf {s : State} {d : List Byte} (hinv : s.Inv) (hp : s.phase = .idle)
    (hne : 1 ≤ d.length) (hfit : d.length ≤ s.cfg.nBuf) : ∃ m, runOps (rxChunk (wireFrame d (checksumOf d))) s =
      .next { s with dbuf := m, events := s.events ++ [.frameOut d] } := by
  have hvalid := sumBytes_add_checksumOf d
  obtain ⟨m, n, hrun, hcount⟩ := runOps_wireFrame (checksumOf d) hinv hp hne hfit
  rw [hcount hvalid, frameEvent, if_pos hvalid] at hrun
  exact ⟨m, hrun⟩

/-- Settles O52: what BUILD_FRAME sends is a frame on the wire, and the chunks are its bytes in one run. -/
theorem roundTripThroughTheDecoder : Obligations.RoundTripThroughTheDecoder := by
  intro ty content s d chunks hinv hp hfit
  have hle : content.length ≤ 65533 := by
    obtain ⟨-, hbuf⟩ : 1 ≤ d.cfg.nBuf ∧ d.cfg.nBuf ≤ 65535 := by simpa [Config.legal] using hinv.cfgLegal
    omega
  refine ⟨_, _, exec_buildFrame_of_le ty s hle, rfl, fun hbytes => ?_⟩
  obtain ⟨m, hrun⟩ := runOps_wireFrame_checksumOf (d := [ty, s.frameId] ++ content) hinv hp (by simp) hfit
  rw [deliver_eq_runOps, hbytes, frameBytes_eq_wireFrame]
  exact ⟨_, hrun, rfl⟩

end Sys2Proof.Machine
end

section
/-! SUPPORT. The control operations of 42_control.md: the state RESET answers, the record STATUS emits, and that each
done again finds what it left. -/

namespace Sys2Proof.Machine

/-! ### RESET (R160) -/

theorem exec_reset (s : State) : exec .reset s = .next { s.toIdle with dropCount := 0, frameId := 0x01 } := rfl

/-- Settles O54: `exec_reset`, from any state and from the state it answers. -/
theorem resetRestoresInitialValues : Obligations.ResetRestoresInitialValues := by
  intro s t
  exact ⟨exec_reset s, exec_reset t, rfl⟩

/-! ### STATUS (R161) -/

theorem exec_status (s : State) : exec .status s = .next (s.emit (.statusOut s.statusRecord)) := rfl

/-- An event is no part of the record, so a second STATUS reads the registers the first one read. -/
@[simp] theorem State.emit_statusRecord (s : State) (e : Event) : (s.emit e).statusRecord = s.statusRecord := rfl

theorem State.emit_emit (s : State) (e e' : Event) :
    (s.emit e).emit e' = { s with events := s.events ++ [e, e'] } := by
  simp [State.emit]

theorem runOps_status_status (s : State) : runOps [.status, .status] s =
    .next { s with events := s.events ++ [.statusOut s.statusRecord, .statusOut s.statusRecord] } := by
  rw [runOps_cons_next _ (exec_status s), runOps_cons_next _ (exec_status _), runOps_nil, State.emit_statusRecord,
    State.emit_emit]

/-- Settles O55: `exec_status` and `runOps_status_status`, the record's phase code being that of R22 in each phase. -/
theorem statusReportsAndChangesNothing : Obligations.StatusReportsAndChangesNothing := by
  intro s r
  have hcode : phaseCode s.phase = r.phaseCode := by
    cases hp : s.phase <;> simp only [phaseCode, r, hp]
  have hrecord : s.statusRecord = r :=
    congrArg (StatusRecord.mk · s.dlen s.dcount s.dropCount s.frameId) hcode
  rw [← hrecord]
  exact ⟨rfl, exec_status s, runOps_status_status s⟩

end Sys2Proof.Machine
end

section
/-! SUPPORT. The exceptions of 60_exceptions.md: a completed frame dropped for the first reason that applies, an encoder
operation that fails whole, the one event of an operation, and the steps that take no operation. -/

namespace Sys2Proof.Machine

/-! ### Every host operation completes (R179) -/

/-- Settles O8: `exec_hostOp_anyStream`, at the stream the state has. -/
theorem hostOperationsAlwaysComplete : Obligations.HostOperationsAlwaysComplete := by
  intro i s hi
  obtain ⟨t, ht⟩ := exec_hostOp_anyStream hi s
  exact ⟨_, ht s.opIn⟩

/-! ### The reason of a drop (R173, R175) -/

/-- The reason a completed frame is dropped for, with the condition of it that holds and those before it that do not. -/
theorem State.dropReason_some_cases {s : State} {c : Byte} {r : DropReason} (h : s.dropReason c = some r) :
    (r = .checksum ∧ csumOk s.dsum c = false) ∨
      (r = .empty ∧ csumOk s.dsum c = true ∧ s.dlen = 0 ∧ s.cfg.pEmpty = .drop) ∨
      (r = .oversize ∧ csumOk s.dsum c = true ∧ ¬(s.dlen = 0 ∧ s.cfg.pEmpty = .drop) ∧ s.cfg.nBuf < s.dlen.toNat) := by
  unfold State.dropReason at h
  split_ifs at h with hcsum hempty hlong <;> cases h
  · exact .inl ⟨rfl, hcsum⟩
  · exact .inr (.inl ⟨rfl, by simpa using hcsum, hempty⟩)
  · exact .inr (.inr ⟨rfl, by simpa using hcsum, hempty, hlong⟩)

/-- The reason CHECKSUM reports is the drop reason of the frame. -/
theorem dropReason_of_exec_checksum {s t : State} {c : Byte} {r : DropReason} (h : exec (.checksum c) s = .next t)
    (hev : t.events = s.events ++ [.drop r]) : s.dropReason c = some r := by
  obtain ⟨hsel, -⟩ := State.ifSelected_next.1 h
  obtain rfl := Host.Outcome.next.inj (h.symm.trans (execChecksum_of_select hsel))
  cases hr : s.dropReason c with
  | some r' => simpa [hr] using hev
  | none => simp [hr] at hev

/-- Settles O25: in each of the three cases of the drop reason, the reason's own condition alone holds of the three. -/
theorem dropReasonOrder : Obligations.DropReasonOrder := by
  intro s t c r _ _ h hev
  have hempty_fits : ¬(s.dlen = 0 ∧ s.cfg.nBuf < s.dlen.toNat) := by
    rintro ⟨h0, hlong⟩
    rw [h0] at hlong
    exact Nat.not_lt_zero _ hlong
  rcases State.dropReason_some_cases (dropReason_of_exec_checksum h hev) with
    ⟨rfl, hcsum⟩ | ⟨rfl, hcsum, hempty⟩ | ⟨rfl, hcsum, hempty, hlong⟩
  · exact ⟨iff_of_true rfl hcsum, iff_of_false nofun (by simp [hcsum]), iff_of_false nofun (by simp [hcsum]),
      fun _ => hempty_fits⟩
  · exact ⟨iff_of_false nofun (by simp [hcsum]), iff_of_true rfl ⟨hcsum, hempty⟩,
      iff_of_false nofun fun ⟨_, hnot, _⟩ => hnot hempty, fun _ => hempty_fits⟩
  · exact ⟨iff_of_false nofun (by simp [hcsum]), iff_of_false nofun fun ⟨_, hyes⟩ => hempty hyes,
      iff_of_true rfl ⟨hcsum, hempty, hlong⟩, fun _ => hempty_fits⟩

/-! ### The events of an operation (R176) -/

/-- Settles O38: unit by unit, the events an operation adds. -/
theorem atMostOneEvent : Obligations.AtMostOneEvent := by
  intro i s t h
  cases hu : i.unit with
  | decoder =>
    obtain ⟨b, -, hb⟩ := exec_decoder_next hu h
    rcases execRxByte_next_events hb with hev | ⟨r, hev⟩ | ⟨d, hev⟩
    · exact ⟨[], by simpa using hev, by simp⟩
    · exact ⟨_, hev, by simp⟩
    · exact ⟨_, hev, by simp⟩
  | encoder =>
    rcases exec_encoder_cases hu s with ⟨e, he⟩ | ⟨ty, content, -, he⟩ <;> cases he.symm.trans h
    · exact ⟨_, rfl, by simp⟩
    · exact ⟨_, rfl, by simp⟩
  | both =>
    cases i with
    | status => cases h; exact ⟨_, rfl, by simp⟩
    | reset => cases h; exact ⟨[], by simp, by simp⟩
    | _ => cases hu

/-! ### The errors of the encoder (R170 to R174) -/

/-- Settles O49: an error raised is the state's one change, and a frame sent adds no error. -/
theorem encoderFailureIsAtomic : Obligations.EncoderFailureIsAtomic := by
  intro i s hu
  rcases exec_encoder_cases hu s with ⟨e, he⟩ | ⟨ty, content, -, he⟩
  · refine ⟨s.emit (.err e), he, .inl ⟨e, rfl⟩, fun e' hmem => ?_⟩
    obtain rfl : e' = e := by simpa using hmem
    rfl
  · refine ⟨_, he, .inr ⟨_, rfl⟩, fun e' hmem => ?_⟩
    simp at hmem

/-- The two addresses come first in the order of R174: each too long gives the one error, and the rest of a builder sees
only addresses that fit. -/
theorem destErrorsFirst {dest64 dest16 : List Byte} {addrError rest : Prop}
    (hlong : 8 < dest64.length ∨ 2 < dest16.length → addrError)
    (hrest : dest64.length ≤ 8 → dest16.length ≤ 2 → rest) :
    if 8 < dest64.length then addrError else if 2 < dest16.length then addrError else rest := by
  split_ifs with h64 h16
  · exact hlong (.inl h64)
  · exact hlong (.inr h16)
  · exact hrest (Nat.not_lt.1 h64) (Nat.not_lt.1 h16)

/-- Settles O53: after the addresses, the case of each builder that the conditions before it leave. -/
theorem encoderErrorOrder : Obligations.EncoderErrorOrder := by
  intro s err sends
  have sends_of_sent {r : Result} {bs : List Byte} (h : r = .next (s.sent bs)) : sends r := ⟨_, bs, h, rfl⟩
  refine ⟨fun dest64 dest16 data options radius => ?transmit, fun dest64 dest16 cmd params options => ?remote,
    fun dest64 dest16 route => ?route⟩
  case transmit =>
    obtain ⟨-, hsent, hlong, hoverflow, -⟩ := transmitDataBuildsItsFrame dest64 dest16 data options radius s
    refine destErrorsFirst hlong fun h64 h16 => ?_
    split_ifs with hdata
    · exact hoverflow h64 h16 hdata
    · exact sends_of_sent (hsent h64 h16 (Nat.not_lt.1 hdata))
  case remote =>
    obtain ⟨-, hsent, hlong, hoverflow, -⟩ := remoteAtBuildsItsFrame dest64 dest16 cmd params options s
    refine destErrorsFirst hlong fun h64 h16 => ?_
    split_ifs with hparams
    · exact hoverflow h64 h16 hparams
    · exact sends_of_sent (hsent h64 h16 (Nat.not_lt.1 hparams))
  case route =>
    obtain ⟨hsent, hlong, hlongRoute, hlongHop, -⟩ := createSourceRouteBuildsItsFrame dest64 dest16 route s
    refine destErrorsFirst hlong fun h64 h16 => ?_
    split_ifs with hroute hhop
    · exact hlongRoute h64 h16 hroute
    · exact hlongHop h64 h16 (Nat.not_lt.1 hroute) hhop
    · obtain ⟨_, -, -, -, -, hframe⟩ := hsent h64 h16 (Nat.not_lt.1 hroute) (by simpa using hhop)
      exact sends_of_sent hframe

/-! ### Steps that take no operation (R183, R184) -/

/-- Settles O6: `step_of_opIn_nil`. -/
theorem noOperationNoChange : Obligations.NoOperationNoChange := fun _ => step_of_opIn_nil

/-- A first byte that holds an unassigned code is rejected by that code, whatever follows (30_encoding.md R74). -/
theorem decode_unassigned {code : BitVec 4} (rest : List Byte)
    (hcode : code = 0x0 ∨ code = 0x7 ∨ code = 0x8 ∨ code = 0x9 ∨ code = 0xA ∨ code = 0xB ∨ code = 0xC ∨ code = 0xD) :
    decode (code.zeroExtend 8 :: rest) = .error (.unassigned code) := by
  rcases hcode with rfl | rfl | rfl | rfl | rfl | rfl | rfl | rfl <;> rfl

/-- A step refuses a stream that is rejected. -/
theorem step_of_decode_error {s : State} {e : DecodeError} (hne : s.opIn ≠ []) (h : decode s.opIn = .error e) :
    step s = .refused (fetchRefusal e) := by
  simp [step, State.fetch, hne, h]

/-- A run of at least one step ends where its first step is refused. -/
theorem run_succ_of_refused {M : Host.Core} {s : M.State} {r : M.Refusal} (k : Nat) (h : M.step s = .refused r) :
    M.run (k + 1) s = .refused r := by
  simp [Host.Core.run, h]

/-- Settles O7: the code is rejected, so the first step is refused, and with it the run. -/
theorem unassignedCodeRefused : Obligations.UnassignedCodeRefused := by
  intro s code rest hcode hstream
  have hdecode : decode s.opIn = .error (.unassigned code) := hstream ▸ decode_unassigned rest hcode
  have hstep : step s = .refused (.unassignedOpcode code) := step_of_decode_error (by simp [hstream]) hdecode
  exact ⟨hstep, fun k => run_succ_of_refused (M := Sys2Proof.core) k hstep⟩

end Sys2Proof.Machine
end

section
/-! SUPPORT. The hazards of 70_reset_and_hazards.md: a corrupted length field keeps the decoder in PAYLOAD_PENDING, where
it takes every byte as frame data (R198, R199). -/

namespace Sys2Proof.Machine

/-- Settles O31: the state `runOps_rxChunk_data` runs to, with its count read without wrapping and its sum mod 256. -/
theorem payloadAbsorbsEveryByte : Obligations.PayloadAbsorbsEveryByte := by
  intro s w hp hmissing
  obtain ⟨m, hrun, -⟩ := runOps_rxChunk_data w hp hmissing
  have hcount : s.dcount.toNat + w.length < 2 ^ 16 := hmissing.trans_lt s.dlen.isLt
  refine ⟨_, hrun, rfl, ?count, ?sum⟩
  case count => simpa using Nat.mod_eq_of_lt hcount
  case sum => rw [BitVec.toNat_add, BitVec.toNat_ofNat, Nat.add_mod_mod]

end Sys2Proof.Machine
end
